-- ==== Sys2Proof/Word.lean ====
section
/-! DEFINITION. The widths of the engine's values (spec/00_scope.md R5): 32-bit words, bytes, 64-byte blocks,
the 8-word hash state, and messages as byte sequences. -/

namespace Sys2Proof

/-- A 32-bit word: `WORD_BITS = 32` and `BUS_BITS = 32` (R5). -/
abbrev Word := BitVec 32

/-- A byte. -/
abbrev Byte := BitVec 8

/-- A block: 64 bytes, `BLOCK_BYTES = 64` (R5). -/
abbrev Block := Vector Byte 64

/-- The hash state: 8 words, `STATE_WORDS = 8` (R5). -/
abbrev HashState := Vector Word 8

/-- A message: a finite byte sequence (R100). -/
abbrev Message := List Byte

end Sys2Proof
end

