-- ==== Sys2Proof/Syntax.lean ====
section
/-! DEFINITION. What the host can send the engine: bus accesses and command words (spec/30_encoding.md R70-R72), and
the instructions they stand for, one constructor per row of spec/opcode_table.json. -/

namespace Sys2Proof

/-- The width of a bus access. The window supports 32 bits only (R52). -/
inductive AccessWidth where
  | byte
  | half
  | word
  deriving DecidableEq, Repr

/-- One bus access (R71): its width, the operation code `op7` (bit 6 is W, bits 5:0 are OFF) and the data of a
write. A read carries no data: its `wdata` is not looked at. -/
structure Access where
  width : AccessWidth
  op7   : BitVec 7
  wdata : Word
  deriving DecidableEq, Repr

/-- The two encoding layers of R70: a bus operation, or a command word (the value of a write to CMD). -/
inductive Encoded where
  | bus (a : Access)
  | cmd (c : Word)
  deriving DecidableEq, Repr

/-- The instructions: the CMD rows, then the BUS rows, in the table's order. -/
inductive Instr where
  /-- INIT (R153). -/
  | init
  /-- ABSORB 1 (R155). -/
  | absorb1
  /-- ABSORB 2 (R155). -/
  | absorb2
  /-- ABSORB 3 (R155). -/
  | absorb3
  /-- ABSORB 4 (R155). -/
  | absorb4
  /-- FINAL (R157). -/
  | final
  /-- FINAL_D (R158). -/
  | finalD
  /-- A command word that decodes to ILLEGAL (R75, R204). -/
  | illegal (c : Word)
  /-- WR CMD of the word `c` (R150). -/
  | wrCmd (c : Word)
  /-- RD CMD (R164). -/
  | rdCmd
  /-- RD STATUS (R161). -/
  | rdStatus
  /-- WR STATUS, ignored (R165). -/
  | wrStatus (v : Word)
  /-- RD DATA (R160). -/
  | rdData
  /-- WR DATA (R159). -/
  | wrData (v : Word)
  /-- RD LEN_LO (R162). -/
  | rdLenLo
  /-- RD LEN_HI (R162). -/
  | rdLenHi
  /-- WR LEN_LO, ignored (R165). -/
  | wrLenLo (v : Word)
  /-- WR LEN_HI, ignored (R165). -/
  | wrLenHi (v : Word)
  /-- RD of the reserved offset 0x14 (R166). -/
  | rdReserved14
  /-- WR of the reserved offset 0x14, ignored (R165). -/
  | wrReserved14 (v : Word)
  /-- RD of the reserved offset 0x18 (R166). -/
  | rdReserved18
  /-- WR of the reserved offset 0x18, ignored (R165). -/
  | wrReserved18 (v : Word)
  /-- RD of the reserved offset 0x1C (R166). -/
  | rdReserved1C
  /-- WR of the reserved offset 0x1C, ignored (R165). -/
  | wrReserved1C (v : Word)
  /-- RD H[i] (R163). -/
  | rdH (i : Fin 8)
  /-- WR H[i], ignored (R165). -/
  | wrH (i : Fin 8) (v : Word)
  /-- An access the model does not admit: not 32 bits wide, or `OFF[1:0] != 0` (R52). -/
  | refused (width : AccessWidth) (op7 : BitVec 7)
  deriving DecidableEq, Repr

end Sys2Proof
end

