-- ==== Sys2Proof/WellFormed.lean ====
section
/-! DEFINITION. Which instruction terms an encoding can stand for: a term of the row (illegal) must carry a word that
is illegal by spec/30_encoding.md R75, a term of the row (refused) an access outside spec/20_memory.md R52. -/

namespace Sys2Proof

/-- The four clauses of R75 under which a command word is illegal, as R75 lists them: OP is bits 3:0, ARG bits 7:4,
RSV bits 31:8 (R72). -/
def illegalWord (c : Word) : Bool :=
  let op := c.extractLsb' 0 4
  let arg := c.extractLsb' 4 4
  let rsv := c.extractLsb' 8 24
  (op == 0 || decide (5 ≤ op))
    || rsv != 0
    || ((op == 1 || op == 3 || op == 4) && arg != 0)
    || (op == 2 && (arg == 0 || decide (5 ≤ arg)))

/-- An access the window supports (R52): 32 bits wide, at an offset that is a multiple of 4. -/
def admitted (width : AccessWidth) (op7 : BitVec 7) : Bool :=
  width == .word && op7.extractLsb' 0 2 == 0

/-- Well-formed instruction terms. -/
def Instr.wf : Instr → Bool
  | .illegal c => illegalWord c
  | .refused width op7 => !admitted width op7
  | .init | .absorb1 | .absorb2 | .absorb3 | .absorb4 | .final | .finalD => true
  | .wrCmd _ | .rdCmd | .rdStatus | .wrStatus _ | .rdData | .wrData _ => true
  | .rdLenLo | .rdLenHi | .wrLenLo _ | .wrLenHi _ => true
  | .rdReserved14 | .wrReserved14 _ | .rdReserved18 | .wrReserved18 _ | .rdReserved1C | .wrReserved1C _ => true
  | .rdH _ | .wrH _ _ => true

end Sys2Proof
end

