-- ==== Sys2Proof/Decode.lean ====
section
/-! DEFINITION. The decoder of both encoding layers (spec/30_encoding.md R71, R74, R79), total on every access and every
command word, then the encoder written from the same tables. -/

namespace Sys2Proof

/-- What a command word decodes to (R79). -/
inductive Command where
  | init
  | absorb1
  | absorb2
  | absorb3
  | absorb4
  | final
  | finalD
  | illegal
  deriving DecidableEq, Repr

/-- OP, bits 3:0 of a command word (R72). -/
def cmdOp (c : Word) : BitVec 4 := c.extractLsb' 0 4

/-- ARG, bits 7:4 of a command word (R72). -/
def cmdArg (c : Word) : BitVec 4 := c.extractLsb' 4 4

/-- RSV, bits 31:8 of a command word (R72). -/
def cmdRsv (c : Word) : BitVec 24 := c.extractLsb' 8 24

/-- The CMD decode function, in R79's order. -/
def decodeCmd (c : Word) : Command :=
  if cmdRsv c ≠ 0 then .illegal
  else if cmdOp c = 1 ∧ cmdArg c = 0 then .init
  else if cmdOp c = 2 ∧ cmdArg c = 1 then .absorb1
  else if cmdOp c = 2 ∧ cmdArg c = 2 then .absorb2
  else if cmdOp c = 2 ∧ cmdArg c = 3 then .absorb3
  else if cmdOp c = 2 ∧ cmdArg c = 4 then .absorb4
  else if cmdOp c = 3 ∧ cmdArg c = 0 then .final
  else if cmdOp c = 4 ∧ cmdArg c = 0 then .finalD
  else .illegal

/-- The instruction of a command word: the row of the CMD map it belongs to (R74). -/
def decodeCmdInstr (c : Word) : Instr :=
  match decodeCmd c with
  | .init => .init
  | .absorb1 => .absorb1
  | .absorb2 => .absorb2
  | .absorb3 => .absorb3
  | .absorb4 => .absorb4
  | .final => .final
  | .finalD => .finalD
  | .illegal => .illegal c

/-- The hash-state index of an `op7` of the form `0b?1iii00`: `i = OFF[4:2]` (R71). -/
def hIndex (op7 : BitVec 7) : Fin 8 := (op7.extractLsb' 2 3).toFin

/-- The BUS decode of a 32-bit access: the bus operation map of R74. Every `op7` with `OFF[1:0] != 0` falls to the
last line. -/
def decodeOp7 (op7 : BitVec 7) (wdata : Word) : Instr :=
  if op7 = 0x40 then .wrCmd wdata
  else if op7 = 0x00 then .rdCmd
  else if op7 = 0x04 then .rdStatus
  else if op7 = 0x44 then .wrStatus wdata
  else if op7 = 0x08 then .rdData
  else if op7 = 0x48 then .wrData wdata
  else if op7 = 0x0C then .rdLenLo
  else if op7 = 0x10 then .rdLenHi
  else if op7 = 0x4C then .wrLenLo wdata
  else if op7 = 0x50 then .wrLenHi wdata
  else if op7 = 0x14 then .rdReserved14
  else if op7 = 0x54 then .wrReserved14 wdata
  else if op7 = 0x18 then .rdReserved18
  else if op7 = 0x58 then .wrReserved18 wdata
  else if op7 = 0x1C then .rdReserved1C
  else if op7 = 0x5C then .wrReserved1C wdata
  else if op7 &&& 0x63 = 0x20 then .rdH (hIndex op7)
  else if op7 &&& 0x63 = 0x60 then .wrH (hIndex op7) wdata
  else .refused .word op7

/-- The BUS decode of any access: one that is not 32 bits wide is refused (R52). -/
def decodeBus (a : Access) : Instr :=
  match a.width with
  | .word => decodeOp7 a.op7 a.wdata
  | .half => .refused .half a.op7
  | .byte => .refused .byte a.op7

/-- The decoder of both layers (R70). -/
def decode : Encoded → Instr
  | .bus a => decodeBus a
  | .cmd c => decodeCmdInstr c

/-! ## The encoder -/

/-- `op7` from its fields (R71): W in bit 6, OFF in bits 5:0. -/
def op7Of (write : Bool) (off : BitVec 6) : BitVec 7 := (BitVec.ofBool write ++ off : BitVec 7)

/-- The offset of H[i]: `0b1iii00` (R51, R71). -/
def hOffset (i : Fin 8) : BitVec 6 := (1#1 ++ BitVec.ofFin (w := 3) i ++ 0#2 : BitVec 6)

/-- A 32-bit read at an offset. -/
def Access.read (off : BitVec 6) : Access := ⟨.word, op7Of false off, 0⟩

/-- A 32-bit write at an offset. -/
def Access.write (off : BitVec 6) (v : Word) : Access := ⟨.word, op7Of true off, v⟩

/-- A command word from its fields (R72): RSV is 0. -/
def cmdWord (op arg : BitVec 4) : Word := (0#24 ++ arg ++ op : BitVec 32)

/-- The encoding of an instruction: the fields of R72 and R74 for a command, the offsets of R51 for a bus
operation. -/
def encode : Instr → Encoded
  | .init => .cmd (cmdWord 0x1 0)
  | .absorb1 => .cmd (cmdWord 0x2 1)
  | .absorb2 => .cmd (cmdWord 0x2 2)
  | .absorb3 => .cmd (cmdWord 0x2 3)
  | .absorb4 => .cmd (cmdWord 0x2 4)
  | .final => .cmd (cmdWord 0x3 0)
  | .finalD => .cmd (cmdWord 0x4 0)
  | .illegal c => .cmd c
  | .wrCmd c => .bus (.write 0x00 c)
  | .rdCmd => .bus (.read 0x00)
  | .rdStatus => .bus (.read 0x04)
  | .wrStatus v => .bus (.write 0x04 v)
  | .rdData => .bus (.read 0x08)
  | .wrData v => .bus (.write 0x08 v)
  | .rdLenLo => .bus (.read 0x0C)
  | .rdLenHi => .bus (.read 0x10)
  | .wrLenLo v => .bus (.write 0x0C v)
  | .wrLenHi v => .bus (.write 0x10 v)
  | .rdReserved14 => .bus (.read 0x14)
  | .wrReserved14 v => .bus (.write 0x14 v)
  | .rdReserved18 => .bus (.read 0x18)
  | .wrReserved18 v => .bus (.write 0x18 v)
  | .rdReserved1C => .bus (.read 0x1C)
  | .wrReserved1C v => .bus (.write 0x1C v)
  | .rdH i => .bus (.read (hOffset i))
  | .wrH i v => .bus (.write (hOffset i) v)
  | .refused width op7 => .bus ⟨width, op7, 0⟩

/-- The bus access that carries an encoding: a command word is the data of a write to CMD (R70, R77). -/
def Encoded.toAccess : Encoded → Access
  | .bus a => a
  | .cmd c => .write 0x00 c

/-- The bus access by which the host issues an instruction. -/
def Instr.toAccess (i : Instr) : Access := (encode i).toAccess

/-! ## Words numbered as spec/opcode_table.json numbers them -/

/-- Why a numbered word is no encoding. -/
inductive Reject where
  /-- No format of R71 or R72 has this many bits. -/
  | noSuchLength
  /-- The number does not fit the bits given. -/
  | tooWide
  /-- A BUS byte with bit 7 set: `op7` has 7 bits (R71). -/
  | notSevenBits
  deriving DecidableEq, Repr

/-- The encoding in the low `nbits` bits of `w` (log 12): 32 bits are a CMD word (R72). 8 or 40 bits are a BUS
operation: `op7` in the first byte and, in the 40-bit form, the write data in bits 39:8; the 8-bit form has zero
data. -/
def unpackTableWord (nbits w : Nat) : Except Reject Encoded :=
  if 2 ^ nbits ≤ w then .error .tooWide
  else if nbits = 32 then .ok (.cmd (BitVec.ofNat 32 w))
  else if nbits = 8 ∨ nbits = 40 then
    if w.testBit 7 then .error .notSevenBits
    else .ok (.bus ⟨.word, BitVec.ofNat 7 w, BitVec.ofNat 32 (w >>> 8)⟩)
  else .error .noSuchLength

/-- The instruction the decoder reads from a word numbered as the table numbers it. -/
def decodeTableWord (nbits w : Nat) : Option Instr :=
  match unpackTableWord nbits w with
  | .ok e => some (decode e)
  | .error _ => none

end Sys2Proof
end

