-- ==== Sys2Proof/Machine/State.lean ====
section
/-! DEFINITION. The state of one engine instance (spec/10_state.md R20), the host agent's side of the model, the
ways a step can stop, and the state after reset (R36). -/

namespace Sys2Proof.Machine

/-- The sequencing state FSM (R24). Its encodings are internal; encoding 3 is never reached and is no value here
(log 6). -/
inductive Fsm where
  | absorbing
  | done
  | error
  deriving DecidableEq, Repr

/-- The error codes of spec/60_exceptions.md R201. The reserved codes 5..15 are never produced and are no values
here (log 6). -/
inductive ErrCode where
  | none
  | illegalCmd
  | badState
  | lengthOverflow
  | blockIndex
  deriving DecidableEq, Repr

/-- One thing the host is about to do: a bus access, a WAIT loop (spec/30_encoding.md R78), asserting reset
(spec/70_reset_and_hazards.md R230), or pausing for one engine step. The spec does not say when the host acts next
(R167): that it pauses exactly where its list says so is a DESIGN CHOICE (log 2). -/
inductive HostStep where
  | access (a : Access)
  | wait
  | reset
  | pause
  deriving DecidableEq, Repr

/-- The state of one engine and of its host. -/
structure State where
  /-- The hash state `H[0..7]` (R21). -/
  h         : HashState
  /-- The sequencing state (R24). -/
  fsm       : Fsm
  /-- The busy flag (R25). -/
  busy      : Bool
  /-- The result-kind flag (R31). -/
  double    : Bool
  /-- The error code (R32). -/
  errcode   : ErrCode
  /-- Bytes held in the block buffer (R30). -/
  bufcnt    : BitVec 6
  /-- The block buffer (R30). -/
  buf       : Block
  /-- The message byte count (R29). -/
  mlen      : BitVec 64
  /-- The data staging register (R28). -/
  data      : Word
  /-- MODEL'S OWN: what the host is about to do, in the order it happens (log 2). -/
  hostSteps : List HostStep
  /-- MODEL'S OWN: the values the host's reads have returned, newest first (log 3). -/
  returned  : List Word
  /-- MODEL'S OWN: engine steps still to pass before FINISH, while BUSY = 1 (log 1). -/
  busyLeft  : Nat
  /-- MODEL'S OWN: how many T_BUSY draws have been taken (log 1). -/
  draw      : Nat
  /-- MODEL'S OWN: which sequence of T_BUSY draws this engine takes; no rule changes it, and BUSY alone reads it (log 22). -/
  delaySource : Nat
  deriving DecidableEq, Repr

/-- Why the machine stops with a fault. -/
inductive Fault where
  /-- Raised by FINAL and FINAL_D when Finalize's precondition `BUFCNT = MLEN mod 64` (R156) does not hold, so that
  the blocks compressed would not be the message's: the model's consistency check of R207 and
  spec/93_implementation_defined.md X1. Safe: the model stops where an engine might go on, and no state that meets
  R37 reaches it (log 8). -/
  | blockIndex
  deriving DecidableEq, Repr

/-- Why the machine refuses an instruction. -/
inductive Refusal where
  /-- Raised by exec for an instruction without a meaning. Safe: nothing is claimed of it. -/
  | notModelled (mnemonic : String)
  /-- Raised by the row (refused): an access that is not 32 bits wide or whose offset is no multiple of 4 (R52).
  Safe: the spec gives it no meaning and asks the model to refuse it (log 9). -/
  | accessNotAdmitted
  deriving DecidableEq, Repr

/-- What a step of this machine answers. -/
abbrev Result := Host.Outcome State Fault Refusal

/-- The state after reset (R36, R230). The model's own fields: log 15. -/
def State.reset : State where
  h         := h0init
  fsm       := .absorbing
  busy      := false
  double    := false
  errcode   := .none
  bufcnt    := 0
  buf       := Vector.replicate 64 0
  mlen      := 0
  data      := 0
  hostSteps := []
  returned  := []
  busyLeft  := 0
  draw      := 0
  delaySource := 0

end Sys2Proof.Machine
end

