-- ==== Sys2Proof/Machine/Flags.lean ====
section
/-! DEFINITION. The status flags and the STATUS register's packing (spec/10_state.md R26, spec/42_commands.md R161,
spec/60_exceptions.md R201). -/

namespace Sys2Proof.Machine

/-- The 4-bit code of an error (R201). -/
def ErrCode.code : ErrCode → BitVec 4
  | .none => 0
  | .illegalCmd => 1
  | .badState => 2
  | .lengthOverflow => 3
  | .blockIndex => 4

/-- STATUS.DONE: 1 iff FSM = DONE (R26). -/
def State.doneFlag (s : State) : Bool := s.fsm == .done

/-- STATUS.ERR: 1 iff FSM = ERROR (R26). -/
def State.errFlag (s : State) : Bool := s.fsm == .error

/-- A one-bit flag as a 32-bit word. -/
def flagWord (b : Bool) : Word := if b then 1 else 0

/-- The value RD STATUS returns (R161): `0x00000001` while BUSY, otherwise the fields of R26. -/
def State.statusWord (s : State) : Word :=
  if s.busy then 0x00000001
  else (s.bufcnt.setWidth 32 <<< 16) ||| (s.errcode.code.setWidth 32 <<< 8) ||| (flagWord s.double <<< 3)
    ||| (flagWord s.errFlag <<< 2) ||| (flagWord s.doneFlag <<< 1)

end Sys2Proof.Machine
end

