-- ==== Sys2Proof/Config.lean ====
section
/-! DEFINITION. What is fixed for one engine and what the spec leaves OPEN (spec/00_scope.md R5). -/

namespace Sys2Proof

/-- `MAX_MSG_BYTES` (R5, R100): the largest message length, `2^61 - 1` bytes. -/
def Config.maxMsgBytes : Nat := 2 ^ 61 - 1

/-- `WINDOW_BYTES` (R5, R50): the size of the register window. -/
def Config.windowBytes : Nat := 64

/-- `T_BUSY` (R5, R237), a FREE VALUE: in the sequence of draws numbered `source`, the number of engine steps between
the `draw`-th performed CMD write and its FINISH. Any finite number, a draw of its own for every command (log 1) and a
sequence of its own for every instance (R215, log 22); nothing can evaluate it. -/
opaque Config.tBusy (source draw : Nat) : Nat

/-- `SHA_BASE` (R5, R50), a FREE VALUE: the platform's base address of the window of its instance number `k`. No rule of
the engine depends on it (log 16), and the addresses of two instances are unrelated (log 22). -/
opaque Config.shaBase (k : Nat) : Nat

end Sys2Proof
end

