-- ==== Sys2Proof/Machine/Bytes.lean ====
section
/-! DEFINITION. The serialisation primitives (spec/00_scope.md R8) and the blocks built byte by byte. -/

namespace Sys2Proof.Machine

/-- `BE32(w)`: `w[31:24], w[23:16], w[15:8], w[7:0]`. -/
def be32 (w : Word) : List Byte :=
  [w.extractLsb' 24 8, w.extractLsb' 16 8, w.extractLsb' 8 8, w.extractLsb' 0 8]

/-- `WordBE(b0, b1, b2, b3)`: `b0` is the most significant byte. -/
def wordBE (b0 b1 b2 b3 : Byte) : Word := ((b0 ++ b1) ++ (b2 ++ b3) : BitVec 32)

/-- Byte `k` of `BE64(v)`: `v[63-8k:56-8k]` (R8, R108). -/
def be64Byte (v : BitVec 64) (k : Nat) : Byte := v.extractLsb' (56 - 8 * k) 8

/-- `BE64(v)`: the most significant byte first. -/
def be64 (v : BitVec 64) : List Byte := (List.range 8).map (be64Byte v)

/-- `Digest(H)`: the 8 words in index order, each big-endian, 32 bytes. -/
def digest (h : HashState) : List Byte := h.toList.flatMap be32

/-- The block whose byte `j` is `f j`. -/
def tabulate (f : Nat → Byte) : Block := ⟨⟨(List.range 64).map f⟩, by simp⟩

/-- Byte `j` of a block. -/
def blockByte (blk : Block) (j : Nat) : Byte := blk.getD j 0

/-- The 64-bit length field of a message of `len` bytes: its bit length `8 * len` (R107). -/
def bitLength (len : Nat) : BitVec 64 := BitVec.ofNat 64 (8 * len)

end Sys2Proof.Machine
end

