-- ==== Sys2Proof/Machine/Compress.lean ====
section
/-! DEFINITION. The compression transform (spec/41_compression.md): word primitives R120-R126, message schedule R129
and R130, rounds R131 and R132, accumulation R133, and `Compress` R134. Everything here is a pure function: the
schedule, the working variables and the round counter live inside one evaluation (spec/10_state.md R35, log 7). -/

namespace Sys2Proof.Machine

/-! ## Word primitives -/

/-- `ROTR^n(x)` for `0 < n < 32` (R120). -/
def rotr (n : Nat) (x : Word) : Word := (x >>> n) ||| (x <<< (32 - n))

/-- `SHR^n(x)` (R120). -/
def shr (n : Nat) (x : Word) : Word := x >>> n

/-- Choose (R121). -/
def ch (e f g : Word) : Word := (e &&& f) ^^^ (~~~e &&& g)

/-- Majority (R122). -/
def maj (a b c : Word) : Word := (a &&& b) ^^^ (a &&& c) ^^^ (b &&& c)

/-- Big sigma zero (R123). -/
def bigSigma0 (x : Word) : Word := rotr 2 x ^^^ rotr 13 x ^^^ rotr 22 x

/-- Big sigma one (R124). -/
def bigSigma1 (x : Word) : Word := rotr 6 x ^^^ rotr 11 x ^^^ rotr 25 x

/-- Small sigma zero (R125). -/
def smallSigma0 (x : Word) : Word := rotr 7 x ^^^ rotr 18 x ^^^ shr 3 x

/-- Small sigma one (R126). -/
def smallSigma1 (x : Word) : Word := rotr 17 x ^^^ rotr 19 x ^^^ shr 10 x

/-! ## The message schedule -/

/-- `W[0..15]`: the block as 16 big-endian words (R129). -/
def scheduleLoad (blk : Block) : List Word :=
  (List.range 16).map fun j =>
    wordBE (blockByte blk (4 * j)) (blockByte blk (4 * j + 1)) (blockByte blk (4 * j + 2)) (blockByte blk (4 * j + 3))

/-- The next schedule word, given those before it NEWEST FIRST: `W[i-2]`, `W[i-7]`, `W[i-15]` and `W[i-16]` stand at
positions 1, 6, 14 and 15 (R130). -/
def scheduleNext (ws : List Word) : Word :=
  smallSigma1 (ws.getD 1 0) + ws.getD 6 0 + smallSigma0 (ws.getD 14 0) + ws.getD 15 0

/-- `n` more schedule words, in increasing order (R130); the list is newest first. -/
def scheduleExpand : Nat → List Word → List Word
  | 0, ws => ws
  | n + 1, ws => scheduleExpand n (scheduleNext ws :: ws)

/-- `W[0..63]` (R129, R130). -/
def schedule (blk : Block) : List Word := (scheduleExpand 48 (scheduleLoad blk).reverse).reverse

/-! ## The rounds -/

/-- The working variables of one compression (R131). -/
structure WorkVars where
  a : Word
  b : Word
  c : Word
  d : Word
  e : Word
  f : Word
  g : Word
  h : Word
  deriving DecidableEq, Repr

/-- The working variables before round 0 (R131). -/
def workInit (hin : HashState) : WorkVars :=
  ⟨hin[0], hin[1], hin[2], hin[3], hin[4], hin[5], hin[6], hin[7]⟩

/-- One round with constant `kw.1 = K[t]` and schedule word `kw.2 = W[t]` (R132): every right-hand side reads the
values from before the round. -/
def workRound (v : WorkVars) (kw : Word × Word) : WorkVars :=
  let t1 := v.h + bigSigma1 v.e + ch v.e v.f v.g + kw.1 + kw.2
  let t2 := bigSigma0 v.a + maj v.a v.b v.c
  ⟨t1 + t2, v.a, v.b, v.c, v.d + t1, v.e, v.f, v.g⟩

/-- The working variables after the rounds of a list of constants and schedule words, in order (R132). -/
def workRounds (v : WorkVars) (kws : List (Word × Word)) : WorkVars := kws.foldl workRound v

/-- The accumulation of R133. -/
def accumulate (hin : HashState) (v : WorkVars) : HashState :=
  #v[hin[0] + v.a, hin[1] + v.b, hin[2] + v.c, hin[3] + v.d, hin[4] + v.e, hin[5] + v.f, hin[6] + v.g, hin[7] + v.h]

/-- `Compress(Hin, blk)` (R134). -/
def compress (hin : HashState) (blk : Block) : HashState :=
  accumulate hin (workRounds (workInit hin) (kRom.zip (schedule blk)))

end Sys2Proof.Machine
end

