-- ==== Sys2Proof/Machine/Operands.lean ====
section
/-! DEFINITION. Where an operation's operands come from: the byte lanes of DATA (spec/20_memory.md R56) and the values
the read-only registers show (spec/10_state.md R21, R28, R29). -/

namespace Sys2Proof.Machine

/-- Byte `k` of an ABSORB: `DATA[31-8k:24-8k]` (R56). -/
def dataByte (d : Word) (k : Nat) : Byte := d.extractLsb' (24 - 8 * k) 8

/-- The bytes an ABSORB `n` takes, in order: the first `n` of DATA, most significant first (R56, R155). -/
def absorbOperand (d : Word) (n : Nat) : List Byte := (List.range n).map (dataByte d)

/-- LEN_LO: `MLEN[31:0]` (R29, R162). -/
def State.lenLo (s : State) : Word := s.mlen.extractLsb' 0 32

/-- LEN_HI: `MLEN[63:32]` (R29, R162). -/
def State.lenHi (s : State) : Word := s.mlen.extractLsb' 32 32

/-- H[i] (R21, R163). -/
def State.hWord (s : State) (i : Fin 8) : Word := s.h[i]

end Sys2Proof.Machine
end

