-- ==== Sys2Proof/Machine/Ops.lean ====
section
/-! DEFINITION. The operations the meanings share: how an access ends or is held, BUSY, entering and leaving ERROR,
absorbing bytes, padding and finalising, and how a command word is performed. -/

namespace Sys2Proof.Machine

/-! ## Accesses -/

/-- The host's current step has happened and the next one stands first (R61). -/
def State.complete (s : State) : State := { s with hostSteps := s.hostSteps.tail }

/-- A held access has no step (R234): it stays the host's current step and nothing changes (log 4). -/
def hold (s : State) : Result := .next s

/-- A read returns the value `v` and has no other effect (R57). -/
def State.returnRead (s : State) (v : Word) : State :=
  { s with hostSteps := s.hostSteps.tail, returned := v :: s.returned }

/-- A read that is never held (R234). -/
def readFree (v : Word) (s : State) : Result := .next (s.returnRead v)

/-- A read that is held while BUSY (R234). -/
def readHeld (v : Word) (s : State) : Result := if s.busy then hold s else .next (s.returnRead v)

/-- A write to a read-only or reserved offset: no effect (R165). -/
def ignoreWrite (s : State) : Result := .next s.complete

/-- `DATA <- v` (R159). -/
def State.stage (s : State) (v : Word) : State := { s with data := v, hostSteps := s.hostSteps.tail }

/-! ## BUSY -/

/-- `BUSY <- 1` (R150), with a fresh draw of T_BUSY (R237, log 1) from the sequence of this engine (R215, log 22). -/
def State.setBusy (s : State) : State :=
  { s with busy := true, busyLeft := Config.tBusy s.delaySource s.draw, draw := s.draw + 1 }

/-- FINISH: `BUSY <- 0` and nothing else (R167). -/
def State.finish (s : State) : State := { s with busy := false }

/-- FINISH is the engine's next step: BUSY is set and the drawn number of engine steps has passed (R237, log 1). -/
def State.finishDue (s : State) : Bool := s.busy && s.busyLeft == 0

/-- One engine step passes while BUSY (R237, log 1). -/
def State.tick (s : State) : State := if s.busy then { s with busyLeft := s.busyLeft - 1 } else s

/-! ## ERROR, INIT and reset -/

/-- `raise Error(code)`, the engine's only exception: entry to the ERROR state (R203). -/
def State.raiseError (s : State) (code : ErrCode) : State := { s with errcode := code, fsm := .error }

/-- INIT's effect (R153), which is also the return from ERROR (R209). DATA is not changed. -/
def State.initialise (s : State) : State :=
  { s with
    h := h0init
    buf := Vector.replicate 64 0
    bufcnt := 0
    mlen := 0
    double := false
    errcode := .none
    fsm := .absorbing }

/-- The reset event (R230): every state item of the engine takes its value of R36. The host goes on after it: its
list, the values it has read, and which draws of T_BUSY come next stay. -/
def State.resetEngine (s : State) : State :=
  { State.reset with
    hostSteps := s.hostSteps.tail, returned := s.returned, draw := s.draw, delaySource := s.delaySource }

/-! ## Absorbing -/

/-- `AbsorbByte(x)` (R154): append one byte; a full block is compressed at once. -/
def State.absorbByte (s : State) (x : Byte) : State :=
  let buf := s.buf.set s.bufcnt.toNat x s.bufcnt.isLt
  if s.bufcnt = 63 then { s with buf := buf, h := compress s.h buf, bufcnt := 0 }
  else { s with buf := buf, bufcnt := s.bufcnt + 1 }

/-- AbsorbByte of each byte, in order. -/
def State.absorbBytes (s : State) (xs : List Byte) : State := xs.foldl State.absorbByte s

/-- ABSORB `n` with the checks passed (R155): the bytes, then `MLEN <- MLEN + n`. -/
def State.absorbData (s : State) (n : Nat) : State :=
  let t := s.absorbBytes (absorbOperand s.data n)
  { t with mlen := t.mlen + BitVec.ofNat 64 n }

/-- The rule of ABSORB `n` (R155): the state check, then the length check, then the bytes (R210). -/
def absorb (n : Nat) (s : State) : Result :=
  if s.fsm ≠ .absorbing then .next (s.raiseError .badState)
  else if Config.maxMsgBytes < s.mlen.toNat + n then .next (s.raiseError .lengthOverflow)
  else .next (s.absorbData n)

/-! ## Padding and finalising -/

/-- The buffer after the terminator and the zero padding of `Finalize` (R156): the bytes held, `0x80` right after
them, then zeros. -/
def State.paddedBuf (s : State) : Block :=
  tabulate fun j =>
    if j < s.bufcnt.toNat then blockByte s.buf j else if j = s.bufcnt.toNat then 0x80 else 0

/-- Whether `Finalize` needs two synthesized blocks: `spare < 9`, that is `BUFCNT >= 56` (R102, R156). -/
def State.needsTwoBlocks (s : State) : Bool := decide (56 ≤ s.bufcnt.toNat)

/-- The last block of `Finalize(L)` (R156): the length field in bytes 56..63, before it the padded buffer, or zeros
where the padded buffer has gone ahead as a block of its own. -/
def State.lastBuf (s : State) (len : Nat) : Block :=
  tabulate fun j =>
    if j < 56 then (if s.needsTwoBlocks then 0 else blockByte s.paddedBuf j)
    else be64Byte (bitLength len) (j - 56)

/-- The hash state `Finalize` compresses its last block on (R156). -/
def State.beforeLast (s : State) : HashState :=
  if s.needsTwoBlocks then compress s.h s.paddedBuf else s.h

/-- `Finalize(L)` (R156). -/
def State.finalize (s : State) (len : Nat) : State :=
  { s with h := compress s.beforeLast (s.lastBuf len), buf := s.lastBuf len, bufcnt := 0 }

/-- The precondition of `Finalize(MLEN)` (R156), under which the blocks compressed are the message's own (R168). -/
def State.paddingReady (s : State) : Bool := s.bufcnt.toNat == s.mlen.toNat % 64

/-- FINAL's effect (R157). -/
def State.finalState (s : State) : State :=
  { s.finalize s.mlen.toNat with double := false, fsm := .done }

/-- Between the passes of FINAL_D (R158): the digest of pass one becomes the 32 bytes held, and the hash state is
the initial one again. -/
def State.loadDigest (s : State) : State :=
  { s with
    h := h0init
    buf := tabulate fun j => if j < 32 then (digest s.h).getD j 0 else blockByte s.buf j
    bufcnt := 32 }

/-- FINAL_D's effect (R158). -/
def State.finalDState (s : State) : State :=
  { (s.finalize s.mlen.toNat).loadDigest.finalize 32 with double := true, fsm := .done }

/-- The rule of FINAL and FINAL_D around their effect (R157, R158): the state check, then the model's consistency
check (R207, log 8). -/
def finalizeWith (effect : State → State) (s : State) : Result :=
  if s.fsm ≠ .absorbing then .next (s.raiseError .badState)
  else if s.paddingReady then .next (effect s)
  else .fault .blockIndex

/-! ## Performing a command -/

/-- The rule of INIT (R153): legal in every FSM state. -/
def initRule (s : State) : Result := .next s.initialise

/-- The rule of an illegal word (R204): the word itself is not recorded. -/
def illegalRule (s : State) : Result := .next (s.raiseError .illegalCmd)

/-- WR CMD of a word whose own rule is `rule` (R150): held while BUSY. Otherwise BUSY is set and the rule is
performed, except that in ERROR only INIT has a further effect (R208). -/
def performCommand (isInit : Bool) (rule : State → Result) (s : State) : Result :=
  if s.busy then hold s
  else if s.fsm = .error ∧ isInit = false then .next s.complete.setBusy
  else rule s.complete.setBusy

end Sys2Proof.Machine
end

