-- ==== Sys2Proof/Machine/Accesses.lean ====
section
/-! DEFINITION. The meanings of the BUS rows but WR CMD (spec/42_commands.md R159-R166; spec/20_memory.md R52). -/

namespace Sys2Proof.Machine

/-- RD CMD (R164): CMD has no storage. -/
def execRdCmd (s : State) : Result := readFree 0 s

/-- RD STATUS (R161): never held. -/
def execRdStatus (s : State) : Result := readFree s.statusWord s

/-- RD DATA (R160): not held. -/
def execRdData (s : State) : Result := readFree s.data s

/-- WR DATA (R159): not held. -/
def execWrData (v : Word) (s : State) : Result := .next (s.stage v)

/-- RD LEN_LO (R162): held while BUSY. -/
def execRdLenLo (s : State) : Result := readHeld s.lenLo s

/-- RD LEN_HI (R162): held while BUSY. -/
def execRdLenHi (s : State) : Result := readHeld s.lenHi s

/-- RD H[i] (R163): held while BUSY. -/
def execRdH (i : Fin 8) (s : State) : Result := readHeld (s.hWord i) s

/-- RD of the reserved offset 0x14 (R166). -/
def execRdReserved14 (s : State) : Result := readFree 0 s

/-- RD of the reserved offset 0x18 (R166). -/
def execRdReserved18 (s : State) : Result := readFree 0 s

/-- RD of the reserved offset 0x1C (R166). -/
def execRdReserved1C (s : State) : Result := readFree 0 s

/-- WR STATUS (R165): ignored. -/
def execWrStatus (_v : Word) (s : State) : Result := ignoreWrite s

/-- WR LEN_LO (R165): ignored. -/
def execWrLenLo (_v : Word) (s : State) : Result := ignoreWrite s

/-- WR LEN_HI (R165): ignored. -/
def execWrLenHi (_v : Word) (s : State) : Result := ignoreWrite s

/-- WR of the reserved offset 0x14 (R165): ignored. -/
def execWrReserved14 (_v : Word) (s : State) : Result := ignoreWrite s

/-- WR of the reserved offset 0x18 (R165): ignored. -/
def execWrReserved18 (_v : Word) (s : State) : Result := ignoreWrite s

/-- WR of the reserved offset 0x1C (R165): ignored. -/
def execWrReserved1C (_v : Word) (s : State) : Result := ignoreWrite s

/-- WR H[i] (R165): ignored. -/
def execWrH (_i : Fin 8) (_v : Word) (s : State) : Result := ignoreWrite s

/-- An access outside R52: the host step is not admitted. -/
def execRefused (_width : AccessWidth) (_op7 : BitVec 7) (_s : State) : Result := .refused .accessNotAdmitted

end Sys2Proof.Machine
end

