-- ==== Sys2Proof/Machine/Commands.lean ====
section
/-! DEFINITION. The meanings of the CMD rows and of WR CMD (spec/42_commands.md R150, R153-R158;
spec/60_exceptions.md R204). A command mnemonic is the write of its word to CMD (R77; log 14). -/

namespace Sys2Proof.Machine

/-- INIT (R153): legal in every FSM state. -/
def execInit (s : State) : Result := performCommand true initRule s

/-- ABSORB 1 (R155). -/
def execAbsorb1 (s : State) : Result := performCommand false (absorb 1) s

/-- ABSORB 2 (R155). -/
def execAbsorb2 (s : State) : Result := performCommand false (absorb 2) s

/-- ABSORB 3 (R155). -/
def execAbsorb3 (s : State) : Result := performCommand false (absorb 3) s

/-- ABSORB 4 (R155). -/
def execAbsorb4 (s : State) : Result := performCommand false (absorb 4) s

/-- FINAL (R157). -/
def execFinal (s : State) : Result := performCommand false (finalizeWith State.finalState) s

/-- FINAL_D (R158). -/
def execFinalD (s : State) : Result := performCommand false (finalizeWith State.finalDState) s

/-- An illegal command word (R204): the word itself is not recorded. -/
def execIllegal (_c : Word) (s : State) : Result := performCommand false illegalRule s

/-- WR CMD of the word `c` (R150): `c` is decoded by R79 and its rule performed. -/
def execWrCmd (c : Word) (s : State) : Result :=
  match decodeCmd c with
  | .init => execInit s
  | .absorb1 => execAbsorb1 s
  | .absorb2 => execAbsorb2 s
  | .absorb3 => execAbsorb3 s
  | .absorb4 => execAbsorb4 s
  | .final => execFinal s
  | .finalD => execFinalD s
  | .illegal => execIllegal c s

end Sys2Proof.Machine
end

