-- ==== Sys2Proof/Machine/Dispatch.lean ====
section
/-! DEFINITION. The dispatch: one arm per row of spec/opcode_table.json, each a direct call of that row's meaning. -/

namespace Sys2Proof.Machine

def exec (i : Instr) (s : State) : Host.Outcome State Fault Refusal :=
  match i with
  | .init => Sys2Proof.Machine.execInit s
  | .absorb1 => Sys2Proof.Machine.execAbsorb1 s
  | .absorb2 => Sys2Proof.Machine.execAbsorb2 s
  | .absorb3 => Sys2Proof.Machine.execAbsorb3 s
  | .absorb4 => Sys2Proof.Machine.execAbsorb4 s
  | .final => Sys2Proof.Machine.execFinal s
  | .finalD => Sys2Proof.Machine.execFinalD s
  | .illegal c => Sys2Proof.Machine.execIllegal c s
  | .wrCmd c => Sys2Proof.Machine.execWrCmd c s
  | .rdCmd => Sys2Proof.Machine.execRdCmd s
  | .rdStatus => Sys2Proof.Machine.execRdStatus s
  | .wrStatus v => Sys2Proof.Machine.execWrStatus v s
  | .rdData => Sys2Proof.Machine.execRdData s
  | .wrData v => Sys2Proof.Machine.execWrData v s
  | .rdLenLo => Sys2Proof.Machine.execRdLenLo s
  | .rdLenHi => Sys2Proof.Machine.execRdLenHi s
  | .wrLenLo v => Sys2Proof.Machine.execWrLenLo v s
  | .wrLenHi v => Sys2Proof.Machine.execWrLenHi v s
  | .rdReserved14 => Sys2Proof.Machine.execRdReserved14 s
  | .wrReserved14 v => Sys2Proof.Machine.execWrReserved14 v s
  | .rdReserved18 => Sys2Proof.Machine.execRdReserved18 s
  | .wrReserved18 v => Sys2Proof.Machine.execWrReserved18 v s
  | .rdReserved1C => Sys2Proof.Machine.execRdReserved1C s
  | .wrReserved1C v => Sys2Proof.Machine.execWrReserved1C v s
  | .rdH k => Sys2Proof.Machine.execRdH k s
  | .wrH k v => Sys2Proof.Machine.execWrH k v s
  | .refused width op7 => Sys2Proof.Machine.execRefused width op7 s

end Sys2Proof.Machine
end

