-- ==== Sys2Proof/Machine/Padding.lean ====
section
/-! DEFINITION. The Block Source and the orchestrator as pure reference functions (spec/40_padding.md R100-R110;
spec/42_commands.md R151, R152): `Blocks(m)`, `HashBlocks(m)`, `Sha256(m)` and `Sha256d(m)`. The engine's own,
streaming form is in Ops.lean. -/

namespace Sys2Proof.Machine

/-- `count(len)` (R101). -/
def blockCount (len : Nat) : Nat := len / 64 + 1 + (if 55 < len % 64 then 1 else 0)

/-- Borrowed block `i`: the message bytes `m[64i .. 64i+63]` (R103). -/
def borrowedBlock (m : Message) (i : Nat) : Block := tabulate fun j => m.getD (64 * i + j) 0

/-- The borrowed blocks, one for each full 64 bytes of the message (R103). -/
def borrowedBlocks (m : Message) : List Block := (List.range (m.length / 64)).map (borrowedBlock m)

/-- Byte `j` of the first synthesized block before any length field (R104): the tail, the terminator right after it
(spec/90_conflicts.md C1), then zeros. -/
def tailByte (m : Message) (j : Nat) : Byte :=
  if j < m.length % 64 then m.getD (64 * (m.length / 64) + j) 0
  else if j = m.length % 64 then 0x80
  else 0

/-- A byte of a last block: `BE64(8*len)` in bytes 56..63 (R108, spec/90_conflicts.md C2), `f j` before it. -/
def withLength (len : Nat) (f : Nat → Byte) (j : Nat) : Byte :=
  if j < 56 then f j else be64Byte (bitLength len) (j - 56)

/-- The one or two synthesized blocks (R105, R106). -/
def synthesizedBlocks (m : Message) : List Block :=
  if m.length % 64 ≤ 55 then [tabulate (withLength m.length (tailByte m))]
  else [tabulate (tailByte m), tabulate (withLength m.length fun _ => 0)]

/-- `Blocks(m)` (R103-R106). -/
def blocks (m : Message) : List Block := borrowedBlocks m ++ synthesizedBlocks m

/-- `Pad(m)`, the closed form of R110. -/
def pad (m : Message) : List Byte :=
  m ++ 0x80 :: (List.replicate ((55 + 64 - m.length % 64) % 64) 0 ++ be64 (bitLength m.length))

/-- The left fold of the compression over blocks, in order (R62). -/
def compressAll (h : HashState) (bs : List Block) : HashState := bs.foldl compress h

/-- `HashBlocks(m)` (R151). -/
def hashBlocks (m : Message) : HashState := compressAll h0init (blocks m)

/-- `Sha256(m)` (R151). -/
def sha256 (m : Message) : List Byte := digest (hashBlocks m)

/-- `Sha256d(m)` (R152). -/
def sha256d (m : Message) : List Byte := sha256 (sha256 m)

end Sys2Proof.Machine
end

