-- ==== Sys2Proof/Machine/Host.lean ====
section
/-! DEFINITION. The host agent (spec/00_scope.md R11): performing the access it is about to make, its WAIT loop, and
the host step lists of spec/30_encoding.md R77 and R78 (log 2, log 18). -/

namespace Sys2Proof.Machine

/-- The host's access `a` is performed: exec of the instruction it decodes to, one engine step having passed if the
engine is BUSY. -/
def performAccess (a : Access) (s : State) : Result := exec (decode (.bus a)) s.tick

/-- Bit 0 of the value the host has just read: STATUS.BUSY (R26). -/
def State.polledBusy (s : State) : Bool := (s.returned.headD 0).getLsbD 0

/-- After a poll of a WAIT loop (R78): while bit 0 of the value read is 1 the host polls again. -/
def State.afterPoll (s t : State) : State := if t.polledBusy then { t with hostSteps := s.hostSteps } else t

/-- One turn of the WAIT loop (R78): a RD STATUS. -/
def performPoll (s : State) : Result :=
  match performAccess (Access.read 0x04) s with
  | .next t => .next (s.afterPoll t)
  | .fault r => .fault r
  | .refused r => .refused r

/-- The access that carries a numbered table word (log 12). A word that is no encoding carries nothing. -/
def tableAccess (nbits w : Nat) : Option Access :=
  match unpackTableWord nbits w with
  | .ok e => some e.toAccess
  | .error _ => none

/-- The state in which `a` is the host's very next access: BUSY is clear, so that neither FINISH nor a hold comes
first (log 13). -/
def State.issue (s : State) (a : Access) : State :=
  { s with busy := false, hostSteps := .access a :: s.hostSteps }

/-! ## Host step lists -/

/-- `WR CMD, c` (R77). -/
def writeCmd (c : Word) : HostStep := .access (.write 0x00 c)

/-- `INIT` (R77). -/
def hostInit : HostStep := writeCmd 0x00000001

/-- `ABSORB n`: `WR CMD, (n << 4) | 0x2` (R77). -/
def hostAbsorb (n : Nat) : HostStep := writeCmd ((BitVec.ofNat 32 n <<< 4) ||| 0x2)

/-- `FINAL` (R77). -/
def hostFinal : HostStep := writeCmd 0x00000003

/-- `FINAL_D` (R77). -/
def hostFinalD : HostStep := writeCmd 0x00000004

/-- `PUT v, n` (R78). -/
def hostPut (v : Word) (n : Nat) : List HostStep := [.access (.write 0x08 v), hostAbsorb n]

/-- `READ_DIGEST` (R78). -/
def hostReadDigest : List HostStep := (List.finRange 8).map fun i => .access (.read (hOffset i))

/-- A stream of chunks between INIT and a finalising command (R168): each chunk is a DATA word and the number of its
bytes that belong to the message. -/
def hostStream (chunks : List (Word × Nat)) (last : HostStep) : List HostStep :=
  hostInit :: (chunks.flatMap (fun c => hostPut c.1 c.2) ++ [last])

/-- The message a stream of chunks carries. -/
def chunkBytes (chunks : List (Word × Nat)) : Message := chunks.flatMap fun c => absorbOperand c.1 c.2

/-- The chunks of `HASH` (R78): full 4-byte groups, then the rest left-aligned with low bytes 0. -/
def hashChunks : Message → List (Word × Nat)
  | b0 :: b1 :: b2 :: b3 :: rest => (wordBE b0 b1 b2 b3, 4) :: hashChunks rest
  | [b0, b1, b2] => [(wordBE b0 b1 b2 0, 3)]
  | [b0, b1] => [(wordBE b0 b1 0 0, 2)]
  | [b0] => [(wordBE b0 0 0 0, 1)]
  | [] => []

/-- `HASH m` (R78). -/
def hostHash (m : Message) : List HostStep := hostStream (hashChunks m) hostFinal

/-- `HASHD m` (R78). -/
def hostHashD (m : Message) : List HostStep := hostStream (hashChunks m) hostFinalD

end Sys2Proof.Machine
end

