-- ==== Sys2Proof/Machine/Step.lean ====
section
/-! DEFINITION. The step of the two agents (spec/00_scope.md R11): a reset the host asserts (R230, always enabled),
the engine's FINISH when it is due (R167), and otherwise what the host does next. A host with nothing to do leaves the
engine as it is (R217; log 11). -/

namespace Sys2Proof.Machine

/-- One step. DESIGN CHOICE, where R167 leaves open when the host acts next (log 2): the host idles between two of its
entries exactly where its list has a pause, one engine step each, so FINISH falls between an access and a reset after it
where enough pauses stand between the two. Of FINISH and a reset that is next, reset goes first (log 1). -/
def step (s : State) : Host.Outcome State Fault Refusal :=
  match s.hostSteps with
  | .reset :: _ => .next s.resetEngine
  | .access a :: _ => if s.finishDue then .next s.finish else performAccess a s
  | .wait :: _ => if s.finishDue then .next s.finish else performPoll s
  | .pause :: _ => if s.finishDue then .next s.finish else .next s.tick.complete
  | [] => if s.finishDue then .next s.finish else .next s.tick

/-- `s` with the instruction of a numbered table word as the host's very next access (log 12, log 13). -/
def State.withFetchWord (s : State) (nbits w : Nat) : State :=
  match tableAccess nbits w with
  | some a => s.issue a
  | none => s

end Sys2Proof.Machine
end

