-- ==== Sys2Proof/Machine/Platform.lean ====
section
/-! DEFINITION. A platform of several engines (spec/60_exceptions.md R215) and the platform addresses of their
windows (spec/20_memory.md R50). Each engine has its own state, its own host, its own draws of T_BUSY and its own base
address; only the ROM contents are shared (log 16, log 22). -/

namespace Sys2Proof.Machine

/-- The engine instances of a platform; their number is the open parameter of R5. -/
abbrev Platform := List State

/-- A platform of `n` engines after reset, each with a sequence of T_BUSY draws of its own (log 22). -/
def Platform.reset (n : Nat) : Platform := (List.range n).map fun k => { State.reset with delaySource := k }

/-- No two instances take their delays from one sequence: they share nothing but the ROM contents (R215, log 22). -/
def Platform.Apart (p : Platform) : Prop := (p.map State.delaySource).Nodup

/-- One step of instance `k`; an instance that does not exist has no step. -/
def Platform.stepAt (p : Platform) (k : Nat) : Option (Host.Outcome Platform Fault Refusal) :=
  match p[k]? with
  | none => none
  | some s =>
    match step s with
    | .next t => some (.next (p.set k t))
    | .fault r => some (.fault r)
    | .refused r => some (.refused r)

/-- The access a platform address means for instance `k`: the engine decodes offset bits 5:0 only, and an address
outside its window is the platform's business (R50). -/
def windowAccess (k addr : Nat) (width : AccessWidth) (write : Bool) (v : Word) : Option Access :=
  if Config.shaBase k ≤ addr ∧ addr < Config.shaBase k + Config.windowBytes then
    some ⟨width, op7Of write (BitVec.ofNat 6 (addr - Config.shaBase k)), v⟩
  else none

end Sys2Proof.Machine
end

