-- ==== Sys2Proof/Safety.lean ====
section
/-! DEFINITION. The terms claims are stated in: the invariants of spec/10_state.md R37, what it means for a state to
hold a message, what a command or an access leaves unchanged, and what counts as a safe run. -/

namespace Sys2Proof

open Machine

/-- R37 (a)-(e). -/
structure Machine.State.Inv (s : State) : Prop where
  /-- (a) -/
  mlen_le     : s.mlen.toNat ≤ Config.maxMsgBytes
  /-- (b) -/
  bufcnt_open : s.fsm = .absorbing → s.bufcnt.toNat = s.mlen.toNat % 64
  /-- (c) -/
  bufcnt_done : s.fsm = .done → s.bufcnt = 0
  /-- (d) -/
  errcode_iff : s.errcode = .none ↔ s.fsm ≠ .error
  /-- (e) -/
  double_imp  : s.double = true → s.fsm ≠ .absorbing

/-- The host's step is one the model admits (R52). -/
def Machine.HostStep.admitted : HostStep → Bool
  | .access a => Sys2Proof.admitted a.width a.op7
  | .wait => true
  | .reset => true
  | .pause => true

/-- Every access the host is about to make is admitted (R52). -/
def Machine.State.Admitted (s : State) : Prop := ∀ x ∈ s.hostSteps, x.admitted = true

/-- The host's step looks at STATUS: a RD STATUS or a WAIT loop. -/
def Machine.HostStep.polls : HostStep → Bool
  | .access a => decodeBus a == .rdStatus
  | .wait => true
  | .reset => false
  | .pause => false

/-- What the host is about to do, its pauses left out (log 2). -/
def Machine.State.activeSteps (s : State) : List HostStep := s.hostSteps.filter fun x => x != .pause

/-- A run that never stops: every number of steps ends in a state, never in a fault or a refusal. -/
def SafeRun (s : State) : Prop := ∀ k, ∃ t, Sys2Proof.core.run k s = .next t

/-- The end of a run (R12): BUSY = 0 and the host has no further access to make. DESIGN CHOICE, where R12 leaves open
whether a state with only a reset or pauses still to come is an end: it is none, since the host's list must be empty (log 23). -/
def Machine.State.Ended (s : State) : Prop := s.busy = false ∧ s.hostSteps = []

/-- `s` holds the open message `m` (R29, R30, R103, R168): as many bytes counted, the full blocks compressed in
order, the rest at the front of the buffer. -/
structure Machine.State.Holds (s : State) (m : Message) : Prop where
  fsm_open : s.fsm = .absorbing
  len_le   : m.length ≤ Config.maxMsgBytes
  mlen_eq  : s.mlen.toNat = m.length
  cnt_eq   : s.bufcnt.toNat = m.length % 64
  h_eq     : s.h = compressAll h0init (borrowedBlocks m)
  buf_eq   : ∀ j, j < m.length % 64 → blockByte s.buf j = m.getD (64 * (m.length / 64) + j) 0

/-- Every item of the engine's state (R20) but BUSY is the same in `s` and `t`. -/
structure SameButBusy (s t : State) : Prop where
  h       : t.h = s.h
  fsm     : t.fsm = s.fsm
  double  : t.double = s.double
  errcode : t.errcode = s.errcode
  bufcnt  : t.bufcnt = s.bufcnt
  buf     : t.buf = s.buf
  mlen    : t.mlen = s.mlen
  data    : t.data = s.data

/-- What every performed CMD write does and leaves alone (R150, R28): BUSY is set, DATA is untouched, the host has
read nothing and goes on to its next step. -/
structure Performed (s t : State) : Prop where
  busy      : t.busy = true
  data      : t.data = s.data
  hostSteps : t.hostSteps = s.hostSteps.tail
  returned  : t.returned = s.returned

/-- A command failed with `code` (R202, R203): it wrote BUSY, FSM and ERRCODE and nothing else. -/
structure Failed (code : ErrCode) (s t : State) : Prop extends Performed s t where
  fsm     : t.fsm = .error
  errcode : t.errcode = code
  h       : t.h = s.h
  buf     : t.buf = s.buf
  bufcnt  : t.bufcnt = s.bufcnt
  mlen    : t.mlen = s.mlen
  double  : t.double = s.double

/-- The ABSORB instructions with their byte counts (R155). -/
def absorbRows : List (Instr × Nat) := [(.absorb1, 1), (.absorb2, 2), (.absorb3, 3), (.absorb4, 4)]

/-- The instructions that are held while BUSY (R234): every command, RD H[i], RD LEN_LO and RD LEN_HI. -/
def Instr.isHeld : Instr → Bool
  | .init | .absorb1 | .absorb2 | .absorb3 | .absorb4 | .final | .finalD | .illegal _ | .wrCmd _ => true
  | .rdLenLo | .rdLenHi | .rdH _ => true
  | .rdCmd | .rdStatus | .wrStatus _ | .rdData | .wrData _ | .wrLenLo _ | .wrLenHi _ => false
  | .rdReserved14 | .wrReserved14 _ | .rdReserved18 | .wrReserved18 _ | .rdReserved1C | .wrReserved1C _ => false
  | .wrH _ _ | .refused _ _ => false

/-- The commands: the CMD rows and WR CMD. -/
def Instr.isCommand : Instr → Bool
  | .init | .absorb1 | .absorb2 | .absorb3 | .absorb4 | .final | .finalD | .illegal _ | .wrCmd _ => true
  | .rdLenLo | .rdLenHi | .rdH _ => false
  | .rdCmd | .rdStatus | .wrStatus _ | .rdData | .wrData _ | .wrLenLo _ | .wrLenHi _ => false
  | .rdReserved14 | .wrReserved14 _ | .rdReserved18 | .wrReserved18 _ | .rdReserved1C | .wrReserved1C _ => false
  | .wrH _ _ | .refused _ _ => false

end Sys2Proof
end

