-- ==== Sys2Proof/Certificates/Slice0/Obligations.lean ====
section
/-! DEFINITION. The statements for the provers. Each says which rule of spec/ it formalises, or that it is derived. -/

open Sys2Proof Sys2Proof.Machine

/-! ## Encoding -/

/-- R74: both opcode maps, row by row. -/
def Obligations.OpcodeMapsAreTheTables : Prop :=
  (decodeCmdInstr 0x00000001 = .init ∧ decodeCmdInstr 0x00000012 = .absorb1 ∧ decodeCmdInstr 0x00000022 = .absorb2
    ∧ decodeCmdInstr 0x00000032 = .absorb3 ∧ decodeCmdInstr 0x00000042 = .absorb4
    ∧ decodeCmdInstr 0x00000003 = .final ∧ decodeCmdInstr 0x00000004 = .finalD)
  ∧ (∀ c : Word, (c.extractLsb' 0 4 = 0 ∨ 5 ≤ c.extractLsb' 0 4) → decodeCmdInstr c = .illegal c)
  ∧ (∀ v : Word,
      decodeBus ⟨.word, 0x40, v⟩ = .wrCmd v ∧ decodeBus ⟨.word, 0x00, v⟩ = .rdCmd
      ∧ decodeBus ⟨.word, 0x04, v⟩ = .rdStatus ∧ decodeBus ⟨.word, 0x44, v⟩ = .wrStatus v
      ∧ decodeBus ⟨.word, 0x08, v⟩ = .rdData ∧ decodeBus ⟨.word, 0x48, v⟩ = .wrData v
      ∧ decodeBus ⟨.word, 0x0C, v⟩ = .rdLenLo ∧ decodeBus ⟨.word, 0x10, v⟩ = .rdLenHi
      ∧ decodeBus ⟨.word, 0x4C, v⟩ = .wrLenLo v ∧ decodeBus ⟨.word, 0x50, v⟩ = .wrLenHi v
      ∧ decodeBus ⟨.word, 0x14, v⟩ = .rdReserved14 ∧ decodeBus ⟨.word, 0x18, v⟩ = .rdReserved18
      ∧ decodeBus ⟨.word, 0x1C, v⟩ = .rdReserved1C ∧ decodeBus ⟨.word, 0x54, v⟩ = .wrReserved14 v
      ∧ decodeBus ⟨.word, 0x58, v⟩ = .wrReserved18 v ∧ decodeBus ⟨.word, 0x5C, v⟩ = .wrReserved1C v)
  ∧ (∀ (i : Fin 8) (v : Word),
      decodeBus ⟨.word, 0x20 + 4 * BitVec.ofNat 7 i.val, v⟩ = .rdH i
      ∧ decodeBus ⟨.word, 0x60 + 4 * BitVec.ofNat 7 i.val, v⟩ = .wrH i v)
  ∧ (∀ (op7 : BitVec 7) (v : Word), op7.extractLsb' 0 2 ≠ 0 → decodeBus ⟨.word, op7, v⟩ = .refused .word op7)

/-- R79: exactly seven words are legal, the others are the illegal ones of R75's four clauses, and an access with a
refused operation code is no step. -/
def Obligations.LegalWordsAreExactlySeven : Prop :=
  (∀ c : Word, decodeCmd c = .illegal ↔ illegalWord c = true)
  ∧ (∀ c : Word, decodeCmd c ≠ .illegal ↔ c ∈ [0x00000001#32, 0x12#32, 0x22#32, 0x32#32, 0x42#32, 0x3#32, 0x4#32])
  ∧ (∀ c : Word, (decodeCmd c = .init ↔ c = 0x1) ∧ (decodeCmd c = .absorb1 ↔ c = 0x12)
      ∧ (decodeCmd c = .absorb2 ↔ c = 0x22) ∧ (decodeCmd c = .absorb3 ↔ c = 0x32)
      ∧ (decodeCmd c = .absorb4 ↔ c = 0x42) ∧ (decodeCmd c = .final ↔ c = 0x3) ∧ (decodeCmd c = .finalD ↔ c = 0x4))
  ∧ (∀ (op7 : BitVec 7) (v : Word) (s : State), op7.extractLsb' 0 2 ≠ 0 →
      exec (decodeBus ⟨.word, op7, v⟩) s = .refused .accessNotAdmitted)

/-- Headline: decoding the encoding of any well-formed instruction gives it back, every operand at every value. -/
def Obligations.DecodeOfEncodeIsTheInstruction : Prop :=
  ∀ i : Instr, i.wf = true → decode (encode i) = i

/-- The other direction: what is decoded is well formed, and encoding it gives the word back (a read carries no
data, so its data is taken as 0). -/
def Obligations.EncodeOfDecodeIsTheWord : Prop :=
  (∀ e : Encoded, (decode e).wf = true)
  ∧ (∀ c : Word, encode (decode (.cmd c)) = .cmd c)
  ∧ (∀ (op7 : BitVec 7) (v : Word), op7.getLsbD 6 = true → admitted .word op7 = true →
      encode (decode (.bus ⟨.word, op7, v⟩)) = .bus ⟨.word, op7, v⟩)
  ∧ (∀ (width : AccessWidth) (op7 : BitVec 7), (op7.getLsbD 6 = false ∨ admitted width op7 = false) →
      encode (decode (.bus ⟨width, op7, 0⟩)) = .bus ⟨width, op7, 0⟩)

/-- R52: an access that is not 32 bits wide or not at a multiple of 4 is refused, and nothing else is. -/
def Obligations.OnlyUnsupportedAccessesAreRefused : Prop :=
  (∀ a : Access, (a.width ≠ .word ∨ a.op7.extractLsb' 0 2 ≠ 0) ↔ decodeBus a = .refused a.width a.op7)
  ∧ (∀ (width : AccessWidth) (op7 : BitVec 7) (s : State),
      exec (.refused width op7) s = .refused .accessNotAdmitted)
  ∧ (∀ (i : Instr) (s : State) (r : Refusal), exec i s = .refused r → ∃ width op7, i = .refused width op7)

/-! ## The step -/

/-- Derived from R61: unless FINISH comes first, a step performs the host's next access, decoded. -/
def Obligations.StepPerformsTheNextAccess : Prop :=
  ∀ (s : State) (a : Access) (rest : List HostStep),
    s.hostSteps = .access a :: rest → (s.busy = false ∨ s.busyLeft ≠ 0) →
    step s = exec (decode (.bus a)) { s with busyLeft := if s.busy then s.busyLeft - 1 else s.busyLeft }

/-- Derived from R61, R77: whatever well-formed instruction the host issues, the step runs exactly it. A command runs
as the write of its word to CMD. -/
def Obligations.IssuedInstructionRuns : Prop :=
  ∀ (i : Instr) (s : State) (rest : List HostStep),
    i.wf = true → s.hostSteps = .access i.toAccess :: rest → (s.busy = false ∨ s.busyLeft ≠ 0) →
    step s = exec i { s with busyLeft := if s.busy then s.busyLeft - 1 else s.busyLeft }

/-- Derived (the model's convention of log 12 and log 13): a numbered table word placed as the host's next access is
decoded and run by the very next step. -/
def Obligations.TableWordRunsNext : Prop :=
  ∀ (s : State) (nbits w : Nat) (i : Instr), decodeTableWord nbits w = some i →
    ∃ a : Access, s.withFetchWord nbits w = { s with busy := false, hostSteps := .access a :: s.hostSteps }
      ∧ step (s.withFetchWord nbits w) = exec i (s.withFetchWord nbits w)

/-- Derived from R167 and R237 (log 1: the delay is a drawn number of engine steps): FINISH clears BUSY and nothing else; it is the engine's step when the drawn delay has passed, and
BUSY is cleared in no other way but reset. -/
def Obligations.FinishClearsBusyOnly : Prop :=
  (∀ s : State, s.busy = true → s.busyLeft = 0 → (∀ rest, s.hostSteps ≠ .reset :: rest) →
      step s = .next { s with busy := false })
  ∧ (∀ s t : State, step s = .next t → s.busy = true → t.busy = false →
      (∃ rest, s.hostSteps = .reset :: rest) ∨ (s.busyLeft = 0 ∧ t = { s with busy := false }))

/-- R230: reset is enabled in every state and gives every item its reset value; the host goes on after it. -/
def Obligations.ResetStepIsAlwaysEnabled : Prop :=
  ∀ (s : State) (rest : List HostStep), s.hostSteps = .reset :: rest →
    ∃ t, step s = .next t ∧ t.h = h0init ∧ t.fsm = .absorbing ∧ t.busy = false ∧ t.double = false
      ∧ t.errcode = .none ∧ t.bufcnt = 0 ∧ (∀ j, j < 64 → blockByte t.buf j = 0) ∧ t.mlen = 0 ∧ t.data = 0
      ∧ t.hostSteps = rest ∧ t.returned = s.returned

/-- R36: the reset values, and the registers as read after reset. -/
def Obligations.ResetValuesAreTheTable : Prop :=
  (∀ i : Fin 8, State.reset.h[i] = h0init[i] ∧ State.reset.hWord i = h0init[i])
  ∧ State.reset.fsm = .absorbing ∧ State.reset.busy = false ∧ State.reset.double = false
  ∧ State.reset.errcode = .none ∧ State.reset.errcode.code = 0 ∧ State.reset.bufcnt = 0
  ∧ (∀ j, j < 64 → blockByte State.reset.buf j = 0)
  ∧ State.reset.mlen = 0 ∧ State.reset.data = 0x00000000
  ∧ State.reset.statusWord = 0x00000000 ∧ State.reset.lenLo = 0x00000000 ∧ State.reset.lenHi = 0x00000000

/-- Derived from R231: INIT from any state, then FINISH, leaves what reset leaves, except that DATA is kept. -/
def Obligations.ResetEqualsInitThenFinishButData : Prop :=
  ∀ s : State, s.busy = false → ∃ t, exec .init s = .next t ∧ SameButBusy { State.reset with data := s.data } t.finish
    ∧ t.finish.busy = State.reset.busy

/-! ## Commands -/

/-- R150: WR CMD decodes its word and performs that command; while BUSY it is held; otherwise it sets BUSY; in ERROR
only INIT does more; an illegal word raises ILLEGAL_CMD; and the rule's example. -/
def Obligations.WrCmdPerformsTheDecodedCommand : Prop :=
  (∀ (c : Word) (s : State), exec (.wrCmd c) s = exec (decodeCmdInstr c) s)
  ∧ (∀ (c : Word) (s : State), s.busy = true → exec (.wrCmd c) s = .next s)
  ∧ (∀ (c : Word) (s : State), s.busy = false → (s.fsm = .absorbing → s.bufcnt.toNat = s.mlen.toNat % 64) →
      ∃ t, exec (.wrCmd c) s = .next t ∧ Performed s t)
  ∧ (∀ (c : Word) (s : State), s.busy = false → s.fsm = .error → c ≠ 0x00000001 →
      ∃ t, exec (.wrCmd c) s = .next t ∧ Performed s t ∧ SameButBusy s t)
  ∧ (∀ (c : Word) (s : State), s.busy = false → s.fsm ≠ .error → decodeCmd c = .illegal →
      ∃ t, exec (.wrCmd c) s = .next t ∧ Failed .illegalCmd s t)
  ∧ (∃ t u, exec (.wrCmd 0x00000003) State.reset = .next t ∧ exec (.rdH 0) t.finish = .next u
      ∧ u.returned = [0xe3b0c442])

/-- R153: INIT. -/
def Obligations.InitStartsANewMessage : Prop :=
  (∀ c : Word, (decodeCmd c = .init ↔ c = 0x00000001)
    ∧ (c.extractLsb' 0 4 = 1 → c ≠ 0x00000001 → decodeCmd c = .illegal))
  ∧ (∀ (i : Instr) (s t : State), exec i s = .next t → s.fsm = .error → t.fsm ≠ .error →
      i = .init ∨ i = .wrCmd 0x00000001)
  ∧ (∀ s : State, s.busy = false → ∃ t, exec .init s = .next t ∧ Performed s t
      ∧ (∀ i : Fin 8, t.h[i] = h0init[i]) ∧ (∀ j, j < 64 → blockByte t.buf j = 0)
      ∧ t.bufcnt = 0 ∧ t.mlen = 0 ∧ t.double = false ∧ t.errcode = .none ∧ t.fsm = .absorbing
      ∧ t.finish.statusWord = 0
      ∧ ∃ u, exec .init t.finish = .next u ∧ SameButBusy t u)

/-- Derived from R154: AbsorbByte. The clause about the bytes at or above BUFCNT (after a full block, all of them) says
what the pseudocode leaves there, which is the model's choice (log 20): R30 gives those bytes no meaning. -/
def Obligations.AbsorbByteAppendsAndCompresses : Prop :=
  ∀ (s : State) (x : Byte),
    (∀ j, j < 64 → blockByte (s.absorbByte x).buf j = if j = s.bufcnt.toNat then x else blockByte s.buf j)
    ∧ (s.bufcnt.toNat + 1 ≠ 64 →
        (s.absorbByte x).bufcnt.toNat = s.bufcnt.toNat + 1 ∧ (s.absorbByte x).h = s.h)
    ∧ (s.bufcnt.toNat + 1 = 64 →
        (s.absorbByte x).bufcnt = 0 ∧ (s.absorbByte x).h = compress s.h (s.absorbByte x).buf)
    ∧ s.absorbByte x = { s with
        buf := (s.absorbByte x).buf, bufcnt := (s.absorbByte x).bufcnt, h := (s.absorbByte x).h }

/-- Derived from R155: ABSORB n. The bytes of DATA fill the buffer from BUFCNT on; if they fill it, the block is compressed and the
rest start the next one. What stands at or above the new BUFCNT is the model's choice (log 20): R30 gives those bytes no
meaning. -/
def Obligations.AbsorbAppendsItsBytes : Prop :=
  ∀ p ∈ absorbRows,
    (decodeCmdInstr ((BitVec.ofNat 32 p.2 <<< 4) ||| 0x2) = p.1)
    ∧ (∀ s : State, s.busy = false → s.fsm = .done → ∃ t, exec p.1 s = .next t ∧ Failed .badState s t)
    ∧ (∀ s : State, s.busy = false → s.fsm = .absorbing → 2 ^ 61 - 1 < s.mlen.toNat + p.2 →
        ∃ t, exec p.1 s = .next t ∧ Failed .lengthOverflow s t)
    ∧ (∀ s : State, s.busy = false → s.fsm = .absorbing → s.mlen.toNat + p.2 ≤ 2 ^ 61 - 1 →
        ∃ t, exec p.1 s = .next t ∧ Performed s t
          ∧ t.fsm = .absorbing ∧ t.errcode = s.errcode ∧ t.double = s.double
          ∧ t.mlen.toNat = s.mlen.toNat + p.2
          ∧ t.bufcnt.toNat = (s.bufcnt.toNat + p.2) % 64
          ∧ (s.bufcnt.toNat + p.2 < 64 → t.h = s.h ∧ ∀ j, j < 64 → blockByte t.buf j =
              if s.bufcnt.toNat ≤ j ∧ j < s.bufcnt.toNat + p.2 then s.data.extractLsb' (24 - 8 * (j - s.bufcnt.toNat)) 8
              else blockByte s.buf j)
          ∧ (64 ≤ s.bufcnt.toNat + p.2 → ∃ full : Block,
              (∀ j, j < 64 → blockByte full j =
                if j < s.bufcnt.toNat then blockByte s.buf j
                else s.data.extractLsb' (24 - 8 * (j - s.bufcnt.toNat)) 8)
              ∧ t.h = compress s.h full
              ∧ ∀ j, j < 64 → blockByte t.buf j =
                if j < s.bufcnt.toNat + p.2 - 64 then s.data.extractLsb' (24 - 8 * (j + 64 - s.bufcnt.toNat)) 8
                else blockByte full j))

/-- Derived from R56: with BUFCNT a multiple of 4, ABSORB 4 makes DATA the next schedule word of the block it ends in,
and DATA is read when the command is performed. The words that lie at or above the new BUFCNT (the other words after it,
and with BUFCNT 60 before the command all of them) are the model's choice (log 20). -/
def Obligations.AlignedWordIsAScheduleWord : Prop :=
  ∀ s : State, s.busy = false → s.fsm = .absorbing → s.mlen.toNat + 4 ≤ Config.maxMsgBytes → s.bufcnt.toNat % 4 = 0 →
    ∃ t, exec .absorb4 s = .next t
      ∧ (schedule t.buf).getD (s.bufcnt.toNat / 4) 0 = s.data
      ∧ (∀ k, k < 16 → k ≠ s.bufcnt.toNat / 4 → (schedule t.buf).getD k 0 = (schedule s.buf).getD k 0)

/-- R204: an illegal word outside ERROR. -/
def Obligations.IllegalWordEntersError : Prop :=
  ∀ (c : Word) (s : State), s.busy = false → s.fsm ≠ .error →
    (∃ t, exec (.illegal c) s = .next t ∧ Failed .illegalCmd s t)
    ∧ (illegalWord c = true → ∃ t, exec (.wrCmd c) s = .next t ∧ Failed .illegalCmd s t)

/-- R203: error entry writes ERRCODE and FSM and nothing else, and STATUS then shows it. -/
def Obligations.ErrorEntryWritesCodeAndState : Prop :=
  (∀ (s : State) (code : ErrCode), s.raiseError code = { s with errcode := code, fsm := .error }
    ∧ (s.busy = false → (s.raiseError code).statusWord.getLsbD 1 = false
        ∧ (s.raiseError code).statusWord.getLsbD 2 = true
        ∧ (s.raiseError code).statusWord.extractLsb' 8 4 = code.code
        ∧ (s.raiseError code).statusWord.getLsbD 3 = s.double
        ∧ (s.raiseError code).statusWord.extractLsb' 16 6 = s.bufcnt))
  ∧ (∀ (i : Instr) (s t : State), exec i s = .next t → s.fsm = .error → t.fsm = .error →
      t.errcode = s.errcode)

/-- R210: which error a word reports, and in which order the causes are looked at; reset goes before everything. -/
def Obligations.CommandErrorsByPriority : Prop :=
  (∀ (s : State) (rest : List HostStep), s.hostSteps = .reset :: rest →
    step s = .next s.resetEngine ∧ s.resetEngine.fsm = .absorbing ∧ s.resetEngine.errcode = .none)
  ∧ ∀ (c : Word) (s t : State), s.busy = false → s.fsm ≠ .error → exec (.wrCmd c) s = .next t →
    (decodeCmd c = .illegal → t.errcode = .illegalCmd ∧ t.fsm = .error)
    ∧ (decodeCmd c ≠ .illegal → c ≠ 0x1 → s.fsm = .done → t.errcode = .badState ∧ t.fsm = .error)
    ∧ (∀ n, 1 ≤ n → n ≤ 4 → c = (BitVec.ofNat 32 n <<< 4) ||| 0x2 → s.fsm = .absorbing →
        (t.errcode = .lengthOverflow ∧ t.fsm = .error ∧ Config.maxMsgBytes < s.mlen.toNat + n)
        ∨ (t.errcode = s.errcode ∧ t.fsm = .absorbing ∧ s.mlen.toNat + n ≤ Config.maxMsgBytes))
    ∧ ((c = 0x3 ∨ c = 0x4) → s.fsm = .absorbing → t.errcode = s.errcode ∧ t.fsm = .done)
    ∧ (c = 0x1 → t.errcode = .none ∧ t.fsm = .absorbing)

/-- R202: a command that enters ERROR writes BUSY, FSM and ERRCODE and nothing else. -/
def Obligations.ErrorsArePrecise : Prop :=
  ∀ (i : Instr) (s t : State), exec i s = .next t → s.fsm ≠ .error → t.fsm = .error →
    i.isCommand = true ∧ s.busy = false ∧ t.errcode ≠ .none ∧ t.errcode ≠ .blockIndex ∧ Failed t.errcode s t

/-- Derived from R208: in ERROR a command other than INIT only sets BUSY. -/
def Obligations.ErrorIgnoresEveryCommandButInit : Prop :=
  (∀ (i : Instr) (s : State), i ∈ [.absorb1, .absorb2, .absorb3, .absorb4, .final, .finalD] →
    s.busy = false → s.fsm = .error → ∃ t, exec i s = .next t ∧ Performed s t ∧ SameButBusy s t)
  ∧ (∀ (c : Word) (s : State), s.busy = false → s.fsm = .error →
      (∃ t, exec (.illegal c) s = .next t ∧ Performed s t ∧ SameButBusy s t)
      ∧ (c ≠ 0x00000001 → ∃ t, exec (.wrCmd c) s = .next t ∧ Performed s t ∧ SameButBusy s t))

/-- R209: only INIT or reset leaves ERROR, and with a fresh message. -/
def Obligations.OnlyInitOrResetLeavesError : Prop :=
  ∀ s t : State, step s = .next t → s.fsm = .error → t.fsm ≠ .error →
    ((∃ rest, s.hostSteps = .reset :: rest)
      ∨ (∃ a rest, s.hostSteps = .access a :: rest ∧ s.busy = false ∧ decodeBus a = .wrCmd 0x00000001))
    ∧ t.fsm = .absorbing ∧ t.errcode = .none ∧ t.mlen = 0 ∧ t.bufcnt = 0 ∧ t.double = false ∧ t.h = h0init

/-- Derived from R24: the transitions of FSM over every step. -/
def Obligations.FsmMovesOnlyAsTheTableSays : Prop :=
  ∀ s t : State, step s = .next t → t.fsm ≠ s.fsm →
    (∃ rest, s.hostSteps = .reset :: rest ∧ t.fsm = .absorbing)
    ∨ (∃ a c rest, s.hostSteps = .access a :: rest ∧ decodeBus a = .wrCmd c ∧ s.busy = false
        ∧ ((c = 0x1 ∧ t.fsm = .absorbing)
          ∨ ((c = 0x3 ∨ c = 0x4) ∧ s.fsm = .absorbing ∧ t.fsm = .done)
          ∨ (s.fsm ≠ .error ∧ t.fsm = .error ∧ t.errcode ≠ .none)))

/-- Derived from R156 (its "This builds exactly the synthesized blocks" is the spec's own inference): Finalize
compresses the message's synthesized blocks, one if at most 55 bytes are held and two otherwise, and leaves the last of
them in the buffer; that the buffer keeps it, at BUFCNT 0, is the model's choice (log 20). -/
def Obligations.FinalizeCompressesTheSynthesizedBlocks : Prop :=
  ∀ (s : State) (m : Message), s.bufcnt.toNat = m.length % 64 →
    (∀ j, j < s.bufcnt.toNat → blockByte s.buf j = m.getD (64 * (m.length / 64) + j) 0) →
    (s.finalize m.length).h = compressAll s.h (synthesizedBlocks m)
    ∧ (s.finalize m.length).bufcnt = 0
    ∧ (synthesizedBlocks m).getLast? = some (s.finalize m.length).buf
    ∧ (synthesizedBlocks m).length = (if s.bufcnt.toNat ≤ 55 then 1 else 2)
    ∧ s.finalize m.length = { s with
        h := (s.finalize m.length).h, buf := (s.finalize m.length).buf, bufcnt := 0 }

/-- Derived from R157: FINAL, in terms of the bytes held. What the buffer keeps, at BUFCNT 0, is the model's choice
(log 20). -/
def Obligations.FinalFinishesTheMessage : Prop :=
  (∀ c : Word, decodeCmd c = .final ↔ c = 0x00000003)
  ∧ (∀ s : State, s.busy = false → s.fsm = .done → ∃ t, exec .final s = .next t ∧ Failed .badState s t)
  ∧ (∀ s : State, s.busy = false → s.fsm = .absorbing → s.bufcnt.toNat = s.mlen.toNat % 64 →
      ∃ t, exec .final s = .next t ∧ Performed s t
        ∧ t.h = (s.finalize s.mlen.toNat).h ∧ t.buf = (s.finalize s.mlen.toNat).buf
        ∧ t.fsm = .done ∧ t.double = false ∧ t.bufcnt = 0 ∧ t.mlen = s.mlen ∧ t.errcode = s.errcode
        ∧ t.finish.statusWord = (t.errcode.code.setWidth 32 <<< 8) ||| 0x00000002)

/-- Derived from R158: FINAL_D. Pass two compresses one block on the initial hash state: the pass-one digest, `0x80`,
zeros, and `BE64(256)`. That the buffer keeps that block, at BUFCNT 0, is the model's choice (log 20). -/
def Obligations.FinalDHashesTheDigestAgain : Prop :=
  (∀ c : Word, decodeCmd c = .finalD ↔ c = 0x00000004)
  ∧ (∀ s : State, s.busy = false → s.fsm = .done → ∃ t, exec .finalD s = .next t ∧ Failed .badState s t)
  ∧ (∀ s : State, s.busy = false → s.fsm = .absorbing → s.bufcnt.toNat = s.mlen.toNat % 64 →
      ∃ t, exec .finalD s = .next t ∧ Performed s t
        ∧ (∃ blk : Block, blk.toList = digest (s.finalize s.mlen.toNat).h
              ++ [0x80] ++ List.replicate 23 0 ++ [0, 0, 0, 0, 0, 0, 1, 0]
            ∧ t.h = compress h0init blk ∧ t.buf = blk)
        ∧ t.fsm = .done ∧ t.double = true ∧ t.bufcnt = 0 ∧ t.mlen = s.mlen ∧ t.errcode = s.errcode
        ∧ t.finish.statusWord = (t.errcode.code.setWidth 32 <<< 8) ||| 0x0000000A)

/-- Derived (the model's consistency check of log 8, from R207 and R156): FINAL and FINAL_D fault exactly when an open
message's BUFCNT is not MLEN mod 64, and no other instruction faults. -/
def Obligations.OnlyInconsistentFinalizingFaults : Prop :=
  (∀ (i : Instr) (s : State), i = .final ∨ i = .finalD →
    (exec i s = .fault .blockIndex ↔
      s.busy = false ∧ s.fsm = .absorbing ∧ s.bufcnt.toNat ≠ s.mlen.toNat % 64))
  ∧ (∀ (i : Instr) (s : State) (r : Fault), exec i s = .fault r →
      i = .final ∨ i = .finalD ∨ i = .wrCmd 0x00000003 ∨ i = .wrCmd 0x00000004)

/-! ## Register accesses -/

/-- R159, R160: WR DATA replaces the whole register and nothing else, BUSY or not; RD DATA returns it and has no other
effect. -/
def Obligations.DataReadsBackWhatWasWritten : Prop :=
  (∀ (v : Word) (s : State), exec (.wrData v) s = .next { s with data := v, hostSteps := s.hostSteps.tail })
  ∧ (∀ s : State,
      exec .rdData s = .next { s with returned := s.data :: s.returned, hostSteps := s.hostSteps.tail })
  ∧ (∀ (v : Word) (s t : State), exec (.wrData v) s = .next t →
      ∃ u, exec .rdData t = .next u ∧ u.returned = v :: s.returned)
  ∧ exec .rdData State.reset = .next { State.reset with returned := [0x00000000] }
  ∧ (∀ s t : State, exec .init s = .next t → t.data = s.data)

/-- R161: RD STATUS is never held, has no effect, and returns the fields of R26. -/
def Obligations.StatusReadReturnsTheFields : Prop :=
  ∀ s : State, ∃ w : Word,
    exec .rdStatus s = .next { s with returned := w :: s.returned, hostSteps := s.hostSteps.tail }
    ∧ (s.busy = true → w = 0x00000001)
    ∧ (s.busy = false →
        w.getLsbD 0 = false ∧ (w.getLsbD 1 = true ↔ s.fsm = .done) ∧ (w.getLsbD 2 = true ↔ s.fsm = .error)
        ∧ w.getLsbD 3 = s.double ∧ w.extractLsb' 4 4 = 0 ∧ w.extractLsb' 8 4 = s.errcode.code
        ∧ w.extractLsb' 12 4 = 0 ∧ w.extractLsb' 16 6 = s.bufcnt ∧ w.extractLsb' 22 10 = 0)
    ∧ (w.getLsbD 1 && w.getLsbD 2) = false

/-- R162: the two halves of MLEN, held while BUSY; nothing but a command changes MLEN between the reads. -/
def Obligations.LengthReadsReturnMlen : Prop :=
  ∀ s : State,
    (s.busy = true → exec .rdLenLo s = .next s ∧ exec .rdLenHi s = .next s)
    ∧ (s.busy = false → ∃ lo hi : Word,
        exec .rdLenLo s = .next { s with returned := lo :: s.returned, hostSteps := s.hostSteps.tail }
        ∧ exec .rdLenHi s = .next { s with returned := hi :: s.returned, hostSteps := s.hostSteps.tail }
        ∧ (hi ++ lo : BitVec 64) = s.mlen
        ∧ (s.mlen.toNat ≤ 2 ^ 61 - 1 → hi.toNat ≤ 0x1FFFFFFF))
    ∧ (∀ (i : Instr) (t : State), i.isCommand = false → exec i s = .next t → t.mlen = s.mlen)

/-- R163: RD H[i], held while BUSY. -/
def Obligations.HashWordReadReturnsTheWord : Prop :=
  ∀ (i : Fin 8) (s : State),
    (s.busy = true → exec (.rdH i) s = .next s)
    ∧ (s.busy = false →
        exec (.rdH i) s = .next { s with returned := s.h[i] :: s.returned, hostSteps := s.hostSteps.tail })

/-- R164, R166: RD CMD and reads of reserved offsets return 0, are not held and have no effect. -/
def Obligations.CmdAndReservedOffsetsReadZero : Prop :=
  ∀ (i : Instr) (s : State), i ∈ [.rdCmd, .rdReserved14, .rdReserved18, .rdReserved1C] →
    exec i s = .next { s with returned := 0x00000000 :: s.returned, hostSteps := s.hostSteps.tail }

/-- R165: writes to read-only and reserved offsets have no effect and are not held. -/
def Obligations.IgnoredWritesChangeNothing : Prop :=
  ∀ (v : Word) (k : Fin 8) (i : Instr) (s : State),
    i ∈ [.wrStatus v, .wrLenLo v, .wrLenHi v, .wrReserved14 v, .wrReserved18 v, .wrReserved1C v, .wrH k v] →
    exec i s = .next { s with hostSteps := s.hostSteps.tail }

/-! ## Holds and timing -/

/-- Derived from R234: which accesses are held while BUSY. A held access has no step, the others are performed, and no step of the
machine lets a held access complete while BUSY. -/
def Obligations.OnlyTheListedAccessesAreHeld : Prop :=
  (∀ (i : Instr) (s : State), s.busy = true → i.isHeld = true → exec i s = .next s)
  ∧ (∀ (i : Instr) (s : State), s.busy = true → i.isHeld = false → (∀ width op7, i ≠ .refused width op7) →
      ∃ t, exec i s = .next t ∧ t.hostSteps = s.hostSteps.tail ∧ t.busy = true)
  ∧ (∀ (s t : State) (a : Access) (rest : List HostStep), s.hostSteps = .access a :: rest →
      (decodeBus a).isHeld = true → s.busy = true → step s = .next t →
      t.hostSteps = s.hostSteps ∧ SameButBusy s t ∧ t.returned = s.returned)

/-- Derived from R234, R167 (log 1, log 4): a held access waits exactly until FINISH, whatever the drawn delay, and is then
performed. It rests on the fairness of FINISH (log 5). -/
def Obligations.HeldAccessIsPerformedAfterFinish : Prop :=
  ∀ (s : State) (a : Access) (rest : List HostStep), s.hostSteps = .access a :: rest →
    (decodeBus a).isHeld = true → s.busy = true →
    (∀ k, k ≤ s.busyLeft → core.run k s = .next { s with busyLeft := s.busyLeft - k })
    ∧ core.run (s.busyLeft + 1) s = .next { s with busy := false, busyLeft := 0 }
    ∧ core.run (s.busyLeft + 2) s = exec (decodeBus a) { s with busy := false, busyLeft := 0 }

/-- Derived from R78 (log 18): a WAIT loop ends, with BUSY clear, nothing of the engine changed, and the last value read not
busy. It rests on the fairness of FINISH (R167, R237; log 1, log 5). -/
def Obligations.WaitLoopEndsWithBusyClear : Prop :=
  ∀ (s : State) (rest : List HostStep), s.hostSteps = .wait :: rest →
    ∃ k t, core.run k s = .next t ∧ t.hostSteps = rest ∧ t.busy = false ∧ SameButBusy s t
      ∧ ∃ n : Nat, t.returned = t.statusWord :: (List.replicate n 0x00000001 ++ s.returned)

/-- Headline, derived from R169 (b), R167, R237 and R12 (log 1, log 2, log 22, log 23): runs from states that differ only in the delays
and in where the host pauses end with the same engine state, whatever T_BUSY is; the values read are the same too if
STATUS is not looked at. That the other run ends rests on the fairness of FINISH (log 5). -/
def Obligations.ResultsDoNotDependOnTBusy : Prop :=
  ∀ (s s' t : State) (k : Nat),
    s' = { s with
      busyLeft := s'.busyLeft, draw := s'.draw, delaySource := s'.delaySource, hostSteps := s'.hostSteps } →
    s'.activeSteps = s.activeSteps → core.run k s = .next t → t.Ended →
    ∃ k' t', core.run k' s' = .next t' ∧ t'.Ended ∧ SameButBusy t t'
      ∧ ((∀ x ∈ s.hostSteps, x.polls = false) → t'.returned = t.returned)

/-! ## The compression transform -/

/-- R120-R126 with the rules' examples: each function bit by bit. -/
def Obligations.PrimitivesAreTheFormulas : Prop :=
  (∀ (n : Nat) (x : Word), 0 < n → n < 32 →
      rotr n x = (x >>> n) ||| (x <<< (32 - n)) ∧ rotr n x = x.rotateRight n
      ∧ shr n x = x >>> n ∧ shr n x = BitVec.ofNat 32 (x.toNat / 2 ^ n))
  ∧ (∀ (e f g : Word) (i : Nat), i < 32 →
      (ch e f g).getLsbD i = if e.getLsbD i then f.getLsbD i else g.getLsbD i)
  ∧ (∀ (a b c : Word) (i : Nat), i < 32 →
      (maj a b c).getLsbD i = decide (2 ≤ (a.getLsbD i).toNat + (b.getLsbD i).toNat + (c.getLsbD i).toNat))
  ∧ (∀ x : Word, bigSigma0 x = x.rotateRight 2 ^^^ x.rotateRight 13 ^^^ x.rotateRight 22
      ∧ bigSigma1 x = x.rotateRight 6 ^^^ x.rotateRight 11 ^^^ x.rotateRight 25
      ∧ smallSigma0 x = x.rotateRight 7 ^^^ x.rotateRight 18 ^^^ (x >>> 3)
      ∧ smallSigma1 x = x.rotateRight 17 ^^^ x.rotateRight 19 ^^^ (x >>> 10))
  ∧ ch 0xffff0000 0x12345678 0x9abcdef0 = 0x1234def0 ∧ maj 0xffff0000 0x12345678 0x9abcdef0 = 0x9abc5670
  ∧ bigSigma0 0x6a09e667 = 0xce20b47e ∧ bigSigma1 0x510e527f = 0x3587272b
  ∧ smallSigma0 0x00000001 = 0x02004000 ∧ smallSigma1 0x00000001 = 0x0000a000

/-- R127, R128 in their second form: the ROM words are the first 32 fractional bits of cube and square roots of the
first primes. -/
def Obligations.RomWordsAreRootFractions : Prop :=
  let primes : List Nat := (List.range 312).filter fun p => decide (2 ≤ p) && (List.range p).all fun d => d < 2 || p % d != 0
  primes.length = 64 ∧ kRom.length = 64
  ∧ (∀ t : Fin 64, ∃ r : Fin (2 ^ 36), (r.val ^ 3 ≤ primes.getD t 0 * 2 ^ 96 ∧ primes.getD t 0 * 2 ^ 96 < (r.val + 1) ^ 3)
      ∧ (kRom.getD t 0).toNat = r.val % 2 ^ 32)
  ∧ (∀ i : Fin 8, ∃ r : Fin (2 ^ 36), (r.val ^ 2 ≤ primes.getD i 0 * 2 ^ 64 ∧ primes.getD i 0 * 2 ^ 64 < (r.val + 1) ^ 2)
      ∧ h0init[i].toNat = r.val % 2 ^ 32)

/-- R129, R130: the message schedule, load and recurrence. -/
def Obligations.ScheduleIsLoadedAndExpanded : Prop :=
  ∀ blk : Block, (schedule blk).length = 64
    ∧ (∀ j, j < 16 → ((schedule blk).getD j 0).toNat =
        (blockByte blk (4 * j)).toNat * 2 ^ 24 + (blockByte blk (4 * j + 1)).toNat * 2 ^ 16
          + (blockByte blk (4 * j + 2)).toNat * 2 ^ 8 + (blockByte blk (4 * j + 3)).toNat)
    ∧ (∀ i, 16 ≤ i → i < 64 → (schedule blk).getD i 0 =
        smallSigma1 ((schedule blk).getD (i - 2) 0) + (schedule blk).getD (i - 7) 0
          + smallSigma0 ((schedule blk).getD (i - 15) 0) + (schedule blk).getD (i - 16) 0)

/-- R131-R134: Compress is 64 rounds from the input hash state, then the accumulation. -/
def Obligations.CompressRunsTheRoundsAndAccumulates : Prop :=
  ∀ (hin : HashState) (blk : Block), ∃ v : Nat → WorkVars,
    v 0 = ⟨hin[0], hin[1], hin[2], hin[3], hin[4], hin[5], hin[6], hin[7]⟩
    ∧ (∀ t, t < 64 → ∃ t1 t2 : Word,
        t1 = (v t).h + bigSigma1 (v t).e + ch (v t).e (v t).f (v t).g + kRom.getD t 0 + (schedule blk).getD t 0
        ∧ t2 = bigSigma0 (v t).a + maj (v t).a (v t).b (v t).c
        ∧ v (t + 1) = ⟨t1 + t2, (v t).a, (v t).b, (v t).c, (v t).d + t1, (v t).e, (v t).f, (v t).g⟩)
    ∧ (compress hin blk)[0] = hin[0] + (v 64).a ∧ (compress hin blk)[1] = hin[1] + (v 64).b
    ∧ (compress hin blk)[2] = hin[2] + (v 64).c ∧ (compress hin blk)[3] = hin[3] + (v 64).d
    ∧ (compress hin blk)[4] = hin[4] + (v 64).e ∧ (compress hin blk)[5] = hin[5] + (v 64).f
    ∧ (compress hin blk)[6] = hin[6] + (v 64).g ∧ (compress hin blk)[7] = hin[7] + (v 64).h

/-! ## Messages and digests -/

/-- R101: the block count in its forms (the third says it is the ceiling of (len+1+8)/64), and it is the number of blocks. -/
def Obligations.BlockCountIsTheNumberOfBlocks : Prop :=
  (∀ len : Nat, blockCount len = (len + 72) / 64 ∧ blockCount len = (len + 9 + 63) / 64 ∧ 1 ≤ blockCount len
    ∧ blockCount len = len / 64 + 1 + (if 55 < len % 64 then 1 else 0)
    ∧ (64 * (blockCount len - 1) < len + 1 + 8 ∧ len + 1 + 8 ≤ 64 * blockCount len)
    ∧ blockCount len = len / 64 + 1 + (if 64 - len % 64 < 9 then 1 else 0))
  ∧ (∀ m : Message, (blocks m).length = blockCount m.length)
  ∧ (∀ m : Message, (synthesizedBlocks m).length ≤ 2 ∧ (borrowedBlocks m).length = m.length / 64)

/-- Derived from R110, the closed form of the padding: the blocks are `Pad(m)` cut into 64-byte pieces, the message first and
unchanged. -/
def Obligations.BlocksArePadCutIntoPieces : Prop :=
  ∀ m : Message, (blocks m).flatMap Vector.toList = pad m
    ∧ (pad m).length = 64 * blockCount m.length
    ∧ (pad m).take m.length = m
    ∧ ∃ z : Nat, z < 64 ∧ (m.length + 1 + z + 8) % 64 = 0
        ∧ pad m = m ++ [0x80] ++ List.replicate z 0 ++ be64 (BitVec.ofNat 64 (8 * m.length))

/-- Known answers of the source (spec/95_test_vectors.md V-S1, V-S3, V-S5) and of the spec's derived vectors (V-S2,
V-C2). -/
def Obligations.KnownAnswersAreReproduced : Prop :=
  let abc : Message := [0x61, 0x62, 0x63]
  hashBlocks abc = #v[0xba7816bf, 0x8f01cfea, 0x414140de, 0x5dae2223, 0xb00361a3, 0x96177a9c, 0xb410ff61, 0xf20015ad]
  ∧ sha256d abc = [0x4f8b42c2#32, 0x2dd3729b#32, 0x519ba6f6#32, 0x8d2da7cc#32, 0x5b2d606d#32, 0x05daed5a#32,
      0xd5128cc0#32, 0x3e6c6358#32].flatMap be32
  ∧ hashBlocks [] = #v[0xe3b0c442, 0x98fc1c14, 0x9afbf4c8, 0x996fb924, 0x27ae41e4, 0x649b934c, 0xa495991b, 0x7852b855]
  ∧ hashBlocks ((List.range 14).flatMap fun i => (List.range 4).map fun j => BitVec.ofNat 8 (0x61 + i + j)) =
      #v[0x248d6a61, 0xd20638b8, 0xe5c02693, 0x0c3e6039, 0xa33ce459, 0x64ff2167, 0xf6ecedd4, 0x19db06c1]
  ∧ compress (Vector.replicate 8 0xffffffff) (Vector.replicate 64 0xff) =
      #v[0x0598127a, 0xaf11706e, 0x77401fff, 0xd730c549, 0x0b84c867, 0xa98c6ca3, 0xd7f3c0f9, 0x06a78b79]

/-- Derived from R153, R155, R231: reset and INIT open the empty message, and ABSORB appends its bytes to the open
message, in every state that holds one. -/
def Obligations.AbsorbExtendsTheMessageHeld : Prop :=
  State.reset.Holds []
  ∧ (∀ s : State, s.busy = false → ∃ t, exec .init s = .next t ∧ t.Holds [])
  ∧ (∀ (m : Message) (s : State), ∀ p ∈ absorbRows, s.Holds m → s.busy = false →
      m.length + p.2 ≤ Config.maxMsgBytes →
      ∃ t, exec p.1 s = .next t ∧ t.Holds (m ++ (List.range p.2).map fun k => s.data.extractLsb' (24 - 8 * k) 8))

/-- Derived from R157, R151, R23: FINAL in a state that holds a message leaves its SHA-256 in H. -/
def Obligations.FinalGivesSha256OfTheMessage : Prop :=
  ∀ (m : Message) (s : State), s.Holds m → s.busy = false →
    ∃ t, exec .final s = .next t ∧ t.h = hashBlocks m ∧ digest t.h = sha256 m ∧ t.fsm = .done ∧ t.double = false
      ∧ t.mlen.toNat = m.length ∧ t.bufcnt = 0

/-- Derived from R158, R152, R23: FINAL_D in a state that holds a message leaves its double hash in H. -/
def Obligations.FinalDGivesSha256dOfTheMessage : Prop :=
  ∀ (m : Message) (s : State), s.Holds m → s.busy = false →
    ∃ t, exec .finalD s = .next t ∧ t.h = hashBlocks (sha256 m) ∧ digest t.h = sha256d m ∧ t.fsm = .done
      ∧ t.double = true ∧ t.mlen.toNat = m.length ∧ t.bufcnt = 0

/-- Headline, derived from R168: streaming equivalence. From ANY state, whatever the delays and however the message is cut into
chunks of 1 to 4 bytes, the stream ends (R12, log 23) with the digest of the message. That the run ends rests on the
fairness of FINISH (R167, R237; log 1, log 5); the host's list is one without pauses (log 2). -/
def Obligations.StreamingEndsWithTheDigest : Prop :=
  ∀ (s : State) (chunks : List (Word × Nat)), (∀ c ∈ chunks, 1 ≤ c.2 ∧ c.2 ≤ 4) →
    (chunkBytes chunks).length ≤ Config.maxMsgBytes →
    (s.hostSteps = hostStream chunks hostFinal →
      ∃ k t, core.run k s = .next t ∧ t.Ended ∧ t.returned = s.returned
        ∧ t.h = hashBlocks (chunkBytes chunks) ∧ digest t.h = sha256 (chunkBytes chunks)
        ∧ t.fsm = .done ∧ t.double = false ∧ t.mlen.toNat = (chunkBytes chunks).length ∧ t.bufcnt = 0)
    ∧ (s.hostSteps = hostStream chunks hostFinalD →
      ∃ k t, core.run k s = .next t ∧ t.Ended ∧ t.returned = s.returned
        ∧ digest t.h = sha256d (chunkBytes chunks)
        ∧ t.fsm = .done ∧ t.double = true ∧ t.mlen.toNat = (chunkBytes chunks).length ∧ t.bufcnt = 0)

/-- Derived from R78: the chunks of HASH carry exactly the message, each 1 to 4 bytes. -/
def Obligations.HashChunksCarryTheMessage : Prop :=
  ∀ m : Message, chunkBytes (hashChunks m) = m ∧ ∀ c ∈ hashChunks m, 1 ≤ c.2 ∧ c.2 ≤ 4

/-! ## Whole-machine rules -/

/-- Derived from R37: the invariants hold at reset. -/
def Obligations.ResetMeetsTheInvariants : Prop := State.reset.Inv

/-- Headline, derived from R37: every step keeps the invariants, from every state that meets them. -/
def Obligations.StepKeepsTheInvariants : Prop :=
  ∀ s t : State, s.Inv → step s = .next t → t.Inv

/-- Headline, derived from R207 and R52 (log 8, log 9): from a state that meets the invariants, a host that makes only supported accesses never sees
the machine stop. -/
def Obligations.RunsFromTheInvariantsAreSafe : Prop :=
  ∀ s : State, s.Inv → s.Admitted → SafeRun s

/-- Derived from R21, R22: H changes in a step only by reset, by INIT, or by whole compressions inside a performed
command, on the old hash state or (pass two of FINAL_D) on the initial one. -/
def Obligations.HashStateChangesOnlyByCommands : Prop :=
  ∀ s t : State, step s = .next t → t.h ≠ s.h →
    (∃ rest, s.hostSteps = .reset :: rest ∧ t.h = h0init)
    ∨ (∃ a c rest, s.hostSteps = .access a :: rest ∧ decodeBus a = .wrCmd c ∧ s.busy = false
        ∧ ((c = 0x1 ∧ t.h = h0init)
          ∨ (c ∈ [0x12#32, 0x22#32, 0x32#32, 0x42#32] ∧ ∃ blk, t.h = compress s.h blk)
          ∨ (c = 0x3 ∧ ∃ bs : List Block, (bs.length = 1 ∨ bs.length = 2) ∧ t.h = compressAll s.h bs)
          ∨ (c = 0x4 ∧ ∃ blk, t.h = compress h0init blk)))

/-- Derived from R215: a step of one instance changes no other instance, and is the step of that instance alone. -/
def Obligations.InstancesAreIndependent : Prop :=
  ∀ (p q : Platform) (k : Nat), p.stepAt k = some (.next q) →
    q.length = p.length ∧ (∀ j, j ≠ k → q[j]? = p[j]?)
    ∧ ∃ s t, p[k]? = some s ∧ q[k]? = some t ∧ step s = .next t

/-- Derived from R215, R5 and R237 (log 1, log 22): the instances of a platform take their delays from sequences of their
own. So it is after reset, no step of any instance changes it, and a command draws from the sequence of its engine. -/
def Obligations.InstancesDrawTheirOwnDelays : Prop :=
  (∀ n : Nat, (Platform.reset n).length = n ∧ (Platform.reset n).Apart
    ∧ ∀ k, k < n → (Platform.reset n)[k]? = some { State.reset with delaySource := k })
  ∧ (∀ (p q : Platform) (k : Nat), p.Apart → p.stepAt k = some (.next q) → q.Apart)
  ∧ (∀ (i : Instr) (s t : State), exec i s = .next t → s.busy = false → t.busy = true →
      t.busyLeft = Config.tBusy s.delaySource s.draw ∧ t.draw = s.draw + 1 ∧ t.delaySource = s.delaySource)

/-- Derived from R50 (log 16, log 22): an address inside the window of an instance is the access at its offset, bits 5:0, whatever SHA_BASE is;
an address outside it is no access of that engine. -/
def Obligations.WindowAddressesAreOffsets : Prop :=
  ∀ (k addr : Nat) (width : AccessWidth) (write : Bool) (v : Word),
    (∀ off : Nat, off < 64 → addr = Config.shaBase k + off →
      ∃ a, windowAccess k addr width write v = some a ∧ a.width = width ∧ a.wdata = v
        ∧ a.op7.getLsbD 6 = write ∧ (a.op7.extractLsb' 0 6).toNat = off)
    ∧ ((addr < Config.shaBase k ∨ Config.shaBase k + 64 ≤ addr) → windowAccess k addr width write v = none)
end

