-- ==== Sys2Proof/Laws/Bytes.lean ====
section
/-! SUPPORT. Blocks built byte by byte, the serialisation primitives, and the shape of the tables and the schedule. -/

namespace Sys2Proof.Machine

@[simp] theorem blockByte_tabulate (f : Nat → Byte) (j : Nat) (hj : j < 64) : blockByte (tabulate f) j = f j := by
  simp [blockByte, tabulate, Vector.getD, hj]

/-- A byte past the end of a block reads 0; no rule reads one (R58). -/
theorem blockByte_of_le (blk : Block) (j : Nat) (hj : 64 ≤ j) : blockByte blk j = 0 := by
  simp [blockByte, Vector.getD, Nat.not_lt.mpr hj]

theorem blockByte_eq_getElem (blk : Block) (j : Nat) (hj : j < 64) : blockByte blk j = blk[j] := by
  simp [blockByte, Vector.getD, hj]

/-- Two blocks with the same 64 bytes are the same block. -/
theorem block_ext {a b : Block} (h : ∀ j, j < 64 → blockByte a j = blockByte b j) : a = b := by
  apply Vector.ext
  intro j hj
  simpa [blockByte_eq_getElem, hj] using h j hj

theorem tabulate_congr {f g : Nat → Byte} (h : ∀ j, j < 64 → f j = g j) : tabulate f = tabulate g :=
  block_ext fun j hj => by simp [hj, h j hj]

@[simp] theorem tabulate_blockByte (blk : Block) : tabulate (blockByte blk) = blk :=
  block_ext fun j hj => by simp [hj]

@[simp] theorem blockByte_zeros (j : Nat) : blockByte (Vector.replicate 64 0#8) j = 0#8 := by
  by_cases hj : j < 64 <;> simp [blockByte, Vector.getD, hj]

theorem blockByte_set (blk : Block) (i : Nat) (hi : i < 64) (x : Byte) (j : Nat) (hj : j < 64) :
    blockByte (blk.set i x hi) j = if j = i then x else blockByte blk j := by
  simp only [blockByte_eq_getElem _ _ hj, Vector.getElem_set]
  by_cases h : j = i
  · simp [h]
  · simp [h, Ne.symm h]

/-- WordBE in R8's form. -/
theorem wordBE_toNat (b0 b1 b2 b3 : Byte) :
    (wordBE b0 b1 b2 b3).toNat = b0.toNat * 2 ^ 24 + b1.toNat * 2 ^ 16 + b2.toNat * 2 ^ 8 + b3.toNat := by
  have h0 := b0.isLt
  have h1 := b1.isLt
  have h2 := b2.isLt
  have h3 := b3.isLt
  have append : ∀ (n : Nat) (x : BitVec n) (m : Nat) (y : BitVec m),
      (x ++ y).toNat = x.toNat * 2 ^ m + y.toNat := fun n x m y => by
    rw [BitVec.toNat_append, ← Nat.shiftLeft_add_eq_or_of_lt y.isLt, Nat.shiftLeft_eq]
  have e : (wordBE b0 b1 b2 b3).toNat = ((b0 ++ b1) ++ (b2 ++ b3)).toNat := rfl
  rw [e, append, append, append]
  omega

/-- WordBE puts the bytes of BE32 together again. -/
theorem wordBE_extract (w : Word) :
    wordBE (w.extractLsb' 24 8) (w.extractLsb' 16 8) (w.extractLsb' 8 8) (w.extractLsb' 0 8) = w := by
  apply BitVec.eq_of_toNat_eq
  have hw := w.isLt
  rw [wordBE_toNat]
  simp only [BitVec.extractLsb'_toNat, Nat.shiftRight_eq_div_pow]
  omega

@[simp] theorem be32_length (w : Word) : (be32 w).length = 4 := rfl

@[simp] theorem be64_length (v : BitVec 64) : (be64 v).length = 8 := by simp [be64]

@[simp] theorem digest_length (h : HashState) : (digest h).length = 32 := by
  simp [digest, List.length_flatMap]

@[simp] theorem kRom_length : kRom.length = 64 := rfl

@[simp] theorem scheduleLoad_length (blk : Block) : (scheduleLoad blk).length = 16 := by simp [scheduleLoad]

@[simp] theorem scheduleExpand_length (n : Nat) (ws : List Word) : (scheduleExpand n ws).length = ws.length + n := by
  induction n generalizing ws with
  | zero => rfl
  | succ n ih => simp [scheduleExpand, ih]; omega

@[simp] theorem schedule_length (blk : Block) : (schedule blk).length = 64 := by simp [schedule]

/-- Expansion only adds newer words. -/
theorem scheduleExpand_append (n : Nat) (ws : List Word) : ∃ l, scheduleExpand n ws = l ++ ws := by
  induction n generalizing ws with
  | zero => exact ⟨[], rfl⟩
  | succ n ih =>
    obtain ⟨l, hl⟩ := ih (scheduleNext ws :: ws)
    exact ⟨l ++ [scheduleNext ws], by simp [scheduleExpand, hl]⟩

/-- The first 16 schedule words are the block's words (R129). -/
theorem schedule_getD_load (blk : Block) (j : Nat) (hj : j < 16) :
    (schedule blk).getD j 0 = wordBE (blockByte blk (4 * j)) (blockByte blk (4 * j + 1)) (blockByte blk (4 * j + 2))
      (blockByte blk (4 * j + 3)) := by
  obtain ⟨l, hl⟩ := scheduleExpand_append 48 (scheduleLoad blk).reverse
  simp only [schedule, hl, List.reverse_append, List.reverse_reverse]
  rw [List.getD_append _ _ _ _ (by simpa using hj)]
  simp [scheduleLoad, List.getD, hj]

@[simp] theorem compressAll_nil (h : HashState) : compressAll h [] = h := rfl

@[simp] theorem compressAll_cons (h : HashState) (b : Block) (bs : List Block) :
    compressAll h (b :: bs) = compressAll (compress h b) bs := rfl

@[simp] theorem compressAll_append (h : HashState) (bs cs : List Block) :
    compressAll h (bs ++ cs) = compressAll (compressAll h bs) cs := by simp [compressAll]

end Sys2Proof.Machine
end

