-- ==== Sys2Proof/Laws/State.lean ====
section
/-! SUPPORT. One lemma per field per update of State, true by unfolding, so that no later proof unfolds a record
update. -/

namespace Sys2Proof.Machine.State

variable (s : State)

@[simp] theorem complete_h : (s.complete).h = s.h := rfl
@[simp] theorem complete_fsm : (s.complete).fsm = s.fsm := rfl
@[simp] theorem complete_busy : (s.complete).busy = s.busy := rfl
@[simp] theorem complete_double : (s.complete).double = s.double := rfl
@[simp] theorem complete_errcode : (s.complete).errcode = s.errcode := rfl
@[simp] theorem complete_bufcnt : (s.complete).bufcnt = s.bufcnt := rfl
@[simp] theorem complete_buf : (s.complete).buf = s.buf := rfl
@[simp] theorem complete_mlen : (s.complete).mlen = s.mlen := rfl
@[simp] theorem complete_data : (s.complete).data = s.data := rfl
@[simp] theorem complete_hostSteps : (s.complete).hostSteps = s.hostSteps.tail := rfl
@[simp] theorem complete_returned : (s.complete).returned = s.returned := rfl
@[simp] theorem complete_busyLeft : (s.complete).busyLeft = s.busyLeft := rfl
@[simp] theorem complete_draw : (s.complete).draw = s.draw := rfl
@[simp] theorem complete_delaySource : (s.complete).delaySource = s.delaySource := rfl

@[simp] theorem returnRead_h (v : Word) : (s.returnRead v).h = s.h := rfl
@[simp] theorem returnRead_fsm (v : Word) : (s.returnRead v).fsm = s.fsm := rfl
@[simp] theorem returnRead_busy (v : Word) : (s.returnRead v).busy = s.busy := rfl
@[simp] theorem returnRead_double (v : Word) : (s.returnRead v).double = s.double := rfl
@[simp] theorem returnRead_errcode (v : Word) : (s.returnRead v).errcode = s.errcode := rfl
@[simp] theorem returnRead_bufcnt (v : Word) : (s.returnRead v).bufcnt = s.bufcnt := rfl
@[simp] theorem returnRead_buf (v : Word) : (s.returnRead v).buf = s.buf := rfl
@[simp] theorem returnRead_mlen (v : Word) : (s.returnRead v).mlen = s.mlen := rfl
@[simp] theorem returnRead_data (v : Word) : (s.returnRead v).data = s.data := rfl
@[simp] theorem returnRead_hostSteps (v : Word) : (s.returnRead v).hostSteps = s.hostSteps.tail := rfl
@[simp] theorem returnRead_returned (v : Word) : (s.returnRead v).returned = v :: s.returned := rfl
@[simp] theorem returnRead_busyLeft (v : Word) : (s.returnRead v).busyLeft = s.busyLeft := rfl
@[simp] theorem returnRead_draw (v : Word) : (s.returnRead v).draw = s.draw := rfl
@[simp] theorem returnRead_delaySource (v : Word) : (s.returnRead v).delaySource = s.delaySource := rfl

@[simp] theorem stage_h (v : Word) : (s.stage v).h = s.h := rfl
@[simp] theorem stage_fsm (v : Word) : (s.stage v).fsm = s.fsm := rfl
@[simp] theorem stage_busy (v : Word) : (s.stage v).busy = s.busy := rfl
@[simp] theorem stage_double (v : Word) : (s.stage v).double = s.double := rfl
@[simp] theorem stage_errcode (v : Word) : (s.stage v).errcode = s.errcode := rfl
@[simp] theorem stage_bufcnt (v : Word) : (s.stage v).bufcnt = s.bufcnt := rfl
@[simp] theorem stage_buf (v : Word) : (s.stage v).buf = s.buf := rfl
@[simp] theorem stage_mlen (v : Word) : (s.stage v).mlen = s.mlen := rfl
@[simp] theorem stage_data (v : Word) : (s.stage v).data = v := rfl
@[simp] theorem stage_hostSteps (v : Word) : (s.stage v).hostSteps = s.hostSteps.tail := rfl
@[simp] theorem stage_returned (v : Word) : (s.stage v).returned = s.returned := rfl
@[simp] theorem stage_busyLeft (v : Word) : (s.stage v).busyLeft = s.busyLeft := rfl
@[simp] theorem stage_draw (v : Word) : (s.stage v).draw = s.draw := rfl
@[simp] theorem stage_delaySource (v : Word) : (s.stage v).delaySource = s.delaySource := rfl

@[simp] theorem setBusy_h : (s.setBusy).h = s.h := rfl
@[simp] theorem setBusy_fsm : (s.setBusy).fsm = s.fsm := rfl
@[simp] theorem setBusy_busy : (s.setBusy).busy = true := rfl
@[simp] theorem setBusy_double : (s.setBusy).double = s.double := rfl
@[simp] theorem setBusy_errcode : (s.setBusy).errcode = s.errcode := rfl
@[simp] theorem setBusy_bufcnt : (s.setBusy).bufcnt = s.bufcnt := rfl
@[simp] theorem setBusy_buf : (s.setBusy).buf = s.buf := rfl
@[simp] theorem setBusy_mlen : (s.setBusy).mlen = s.mlen := rfl
@[simp] theorem setBusy_data : (s.setBusy).data = s.data := rfl
@[simp] theorem setBusy_hostSteps : (s.setBusy).hostSteps = s.hostSteps := rfl
@[simp] theorem setBusy_returned : (s.setBusy).returned = s.returned := rfl
@[simp] theorem setBusy_busyLeft : (s.setBusy).busyLeft = Config.tBusy s.delaySource s.draw := rfl
@[simp] theorem setBusy_draw : (s.setBusy).draw = s.draw + 1 := rfl
@[simp] theorem setBusy_delaySource : (s.setBusy).delaySource = s.delaySource := rfl

@[simp] theorem finish_h : (s.finish).h = s.h := rfl
@[simp] theorem finish_fsm : (s.finish).fsm = s.fsm := rfl
@[simp] theorem finish_busy : (s.finish).busy = false := rfl
@[simp] theorem finish_double : (s.finish).double = s.double := rfl
@[simp] theorem finish_errcode : (s.finish).errcode = s.errcode := rfl
@[simp] theorem finish_bufcnt : (s.finish).bufcnt = s.bufcnt := rfl
@[simp] theorem finish_buf : (s.finish).buf = s.buf := rfl
@[simp] theorem finish_mlen : (s.finish).mlen = s.mlen := rfl
@[simp] theorem finish_data : (s.finish).data = s.data := rfl
@[simp] theorem finish_hostSteps : (s.finish).hostSteps = s.hostSteps := rfl
@[simp] theorem finish_returned : (s.finish).returned = s.returned := rfl
@[simp] theorem finish_busyLeft : (s.finish).busyLeft = s.busyLeft := rfl
@[simp] theorem finish_draw : (s.finish).draw = s.draw := rfl
@[simp] theorem finish_delaySource : (s.finish).delaySource = s.delaySource := rfl

@[simp] theorem raiseError_h (c : ErrCode) : (s.raiseError c).h = s.h := rfl
@[simp] theorem raiseError_fsm (c : ErrCode) : (s.raiseError c).fsm = .error := rfl
@[simp] theorem raiseError_busy (c : ErrCode) : (s.raiseError c).busy = s.busy := rfl
@[simp] theorem raiseError_double (c : ErrCode) : (s.raiseError c).double = s.double := rfl
@[simp] theorem raiseError_errcode (c : ErrCode) : (s.raiseError c).errcode = c := rfl
@[simp] theorem raiseError_bufcnt (c : ErrCode) : (s.raiseError c).bufcnt = s.bufcnt := rfl
@[simp] theorem raiseError_buf (c : ErrCode) : (s.raiseError c).buf = s.buf := rfl
@[simp] theorem raiseError_mlen (c : ErrCode) : (s.raiseError c).mlen = s.mlen := rfl
@[simp] theorem raiseError_data (c : ErrCode) : (s.raiseError c).data = s.data := rfl
@[simp] theorem raiseError_hostSteps (c : ErrCode) : (s.raiseError c).hostSteps = s.hostSteps := rfl
@[simp] theorem raiseError_returned (c : ErrCode) : (s.raiseError c).returned = s.returned := rfl
@[simp] theorem raiseError_busyLeft (c : ErrCode) : (s.raiseError c).busyLeft = s.busyLeft := rfl
@[simp] theorem raiseError_draw (c : ErrCode) : (s.raiseError c).draw = s.draw := rfl
@[simp] theorem raiseError_delaySource (c : ErrCode) : (s.raiseError c).delaySource = s.delaySource := rfl

@[simp] theorem initialise_h : (s.initialise).h = h0init := rfl
@[simp] theorem initialise_fsm : (s.initialise).fsm = .absorbing := rfl
@[simp] theorem initialise_busy : (s.initialise).busy = s.busy := rfl
@[simp] theorem initialise_double : (s.initialise).double = false := rfl
@[simp] theorem initialise_errcode : (s.initialise).errcode = .none := rfl
@[simp] theorem initialise_bufcnt : (s.initialise).bufcnt = 0 := rfl
@[simp] theorem initialise_buf : (s.initialise).buf = Vector.replicate 64 0#8 := rfl
@[simp] theorem initialise_mlen : (s.initialise).mlen = 0 := rfl
@[simp] theorem initialise_data : (s.initialise).data = s.data := rfl
@[simp] theorem initialise_hostSteps : (s.initialise).hostSteps = s.hostSteps := rfl
@[simp] theorem initialise_returned : (s.initialise).returned = s.returned := rfl
@[simp] theorem initialise_busyLeft : (s.initialise).busyLeft = s.busyLeft := rfl
@[simp] theorem initialise_draw : (s.initialise).draw = s.draw := rfl
@[simp] theorem initialise_delaySource : (s.initialise).delaySource = s.delaySource := rfl

@[simp] theorem resetEngine_h : (s.resetEngine).h = h0init := rfl
@[simp] theorem resetEngine_fsm : (s.resetEngine).fsm = .absorbing := rfl
@[simp] theorem resetEngine_busy : (s.resetEngine).busy = false := rfl
@[simp] theorem resetEngine_double : (s.resetEngine).double = false := rfl
@[simp] theorem resetEngine_errcode : (s.resetEngine).errcode = .none := rfl
@[simp] theorem resetEngine_bufcnt : (s.resetEngine).bufcnt = 0 := rfl
@[simp] theorem resetEngine_buf : (s.resetEngine).buf = Vector.replicate 64 0#8 := rfl
@[simp] theorem resetEngine_mlen : (s.resetEngine).mlen = 0 := rfl
@[simp] theorem resetEngine_data : (s.resetEngine).data = 0 := rfl
@[simp] theorem resetEngine_hostSteps : (s.resetEngine).hostSteps = s.hostSteps.tail := rfl
@[simp] theorem resetEngine_returned : (s.resetEngine).returned = s.returned := rfl
@[simp] theorem resetEngine_busyLeft : (s.resetEngine).busyLeft = 0 := rfl
@[simp] theorem resetEngine_draw : (s.resetEngine).draw = s.draw := rfl
@[simp] theorem resetEngine_delaySource : (s.resetEngine).delaySource = s.delaySource := rfl

@[simp] theorem finalize_h (len : Nat) : (s.finalize len).h = compress s.beforeLast (s.lastBuf len) := rfl
@[simp] theorem finalize_fsm (len : Nat) : (s.finalize len).fsm = s.fsm := rfl
@[simp] theorem finalize_busy (len : Nat) : (s.finalize len).busy = s.busy := rfl
@[simp] theorem finalize_double (len : Nat) : (s.finalize len).double = s.double := rfl
@[simp] theorem finalize_errcode (len : Nat) : (s.finalize len).errcode = s.errcode := rfl
@[simp] theorem finalize_bufcnt (len : Nat) : (s.finalize len).bufcnt = 0 := rfl
@[simp] theorem finalize_buf (len : Nat) : (s.finalize len).buf = s.lastBuf len := rfl
@[simp] theorem finalize_mlen (len : Nat) : (s.finalize len).mlen = s.mlen := rfl
@[simp] theorem finalize_data (len : Nat) : (s.finalize len).data = s.data := rfl
@[simp] theorem finalize_hostSteps (len : Nat) : (s.finalize len).hostSteps = s.hostSteps := rfl
@[simp] theorem finalize_returned (len : Nat) : (s.finalize len).returned = s.returned := rfl
@[simp] theorem finalize_busyLeft (len : Nat) : (s.finalize len).busyLeft = s.busyLeft := rfl
@[simp] theorem finalize_draw (len : Nat) : (s.finalize len).draw = s.draw := rfl
@[simp] theorem finalize_delaySource (len : Nat) : (s.finalize len).delaySource = s.delaySource := rfl

@[simp] theorem loadDigest_h : (s.loadDigest).h = h0init := rfl
@[simp] theorem loadDigest_fsm : (s.loadDigest).fsm = s.fsm := rfl
@[simp] theorem loadDigest_busy : (s.loadDigest).busy = s.busy := rfl
@[simp] theorem loadDigest_double : (s.loadDigest).double = s.double := rfl
@[simp] theorem loadDigest_errcode : (s.loadDigest).errcode = s.errcode := rfl
@[simp] theorem loadDigest_bufcnt : (s.loadDigest).bufcnt = 32 := rfl
@[simp] theorem loadDigest_buf :
    (s.loadDigest).buf = tabulate fun j => if j < 32 then (digest s.h).getD j 0 else blockByte s.buf j := rfl
@[simp] theorem loadDigest_mlen : (s.loadDigest).mlen = s.mlen := rfl
@[simp] theorem loadDigest_data : (s.loadDigest).data = s.data := rfl
@[simp] theorem loadDigest_hostSteps : (s.loadDigest).hostSteps = s.hostSteps := rfl
@[simp] theorem loadDigest_returned : (s.loadDigest).returned = s.returned := rfl
@[simp] theorem loadDigest_busyLeft : (s.loadDigest).busyLeft = s.busyLeft := rfl
@[simp] theorem loadDigest_draw : (s.loadDigest).draw = s.draw := rfl
@[simp] theorem loadDigest_delaySource : (s.loadDigest).delaySource = s.delaySource := rfl

@[simp] theorem finalState_h : (s.finalState).h = (s.finalize s.mlen.toNat).h := rfl
@[simp] theorem finalState_fsm : (s.finalState).fsm = .done := rfl
@[simp] theorem finalState_busy : (s.finalState).busy = s.busy := rfl
@[simp] theorem finalState_double : (s.finalState).double = false := rfl
@[simp] theorem finalState_errcode : (s.finalState).errcode = s.errcode := rfl
@[simp] theorem finalState_bufcnt : (s.finalState).bufcnt = 0 := rfl
@[simp] theorem finalState_buf : (s.finalState).buf = (s.finalize s.mlen.toNat).buf := rfl
@[simp] theorem finalState_mlen : (s.finalState).mlen = s.mlen := rfl
@[simp] theorem finalState_data : (s.finalState).data = s.data := rfl
@[simp] theorem finalState_hostSteps : (s.finalState).hostSteps = s.hostSteps := rfl
@[simp] theorem finalState_returned : (s.finalState).returned = s.returned := rfl
@[simp] theorem finalState_busyLeft : (s.finalState).busyLeft = s.busyLeft := rfl
@[simp] theorem finalState_draw : (s.finalState).draw = s.draw := rfl
@[simp] theorem finalState_delaySource : (s.finalState).delaySource = s.delaySource := rfl

@[simp] theorem finalDState_h : (s.finalDState).h = ((s.finalize s.mlen.toNat).loadDigest.finalize 32).h := rfl
@[simp] theorem finalDState_fsm : (s.finalDState).fsm = .done := rfl
@[simp] theorem finalDState_busy : (s.finalDState).busy = s.busy := rfl
@[simp] theorem finalDState_double : (s.finalDState).double = true := rfl
@[simp] theorem finalDState_errcode : (s.finalDState).errcode = s.errcode := rfl
@[simp] theorem finalDState_bufcnt : (s.finalDState).bufcnt = 0 := rfl
@[simp] theorem finalDState_buf : (s.finalDState).buf = ((s.finalize s.mlen.toNat).loadDigest.finalize 32).buf := rfl
@[simp] theorem finalDState_mlen : (s.finalDState).mlen = s.mlen := rfl
@[simp] theorem finalDState_data : (s.finalDState).data = s.data := rfl
@[simp] theorem finalDState_hostSteps : (s.finalDState).hostSteps = s.hostSteps := rfl
@[simp] theorem finalDState_returned : (s.finalDState).returned = s.returned := rfl
@[simp] theorem finalDState_busyLeft : (s.finalDState).busyLeft = s.busyLeft := rfl
@[simp] theorem finalDState_draw : (s.finalDState).draw = s.draw := rfl
@[simp] theorem finalDState_delaySource : (s.finalDState).delaySource = s.delaySource := rfl

@[simp] theorem issue_h (a : Access) : (s.issue a).h = s.h := rfl
@[simp] theorem issue_fsm (a : Access) : (s.issue a).fsm = s.fsm := rfl
@[simp] theorem issue_busy (a : Access) : (s.issue a).busy = false := rfl
@[simp] theorem issue_double (a : Access) : (s.issue a).double = s.double := rfl
@[simp] theorem issue_errcode (a : Access) : (s.issue a).errcode = s.errcode := rfl
@[simp] theorem issue_bufcnt (a : Access) : (s.issue a).bufcnt = s.bufcnt := rfl
@[simp] theorem issue_buf (a : Access) : (s.issue a).buf = s.buf := rfl
@[simp] theorem issue_mlen (a : Access) : (s.issue a).mlen = s.mlen := rfl
@[simp] theorem issue_data (a : Access) : (s.issue a).data = s.data := rfl
@[simp] theorem issue_hostSteps (a : Access) : (s.issue a).hostSteps = .access a :: s.hostSteps := rfl
@[simp] theorem issue_returned (a : Access) : (s.issue a).returned = s.returned := rfl
@[simp] theorem issue_busyLeft (a : Access) : (s.issue a).busyLeft = s.busyLeft := rfl
@[simp] theorem issue_draw (a : Access) : (s.issue a).draw = s.draw := rfl
@[simp] theorem issue_delaySource (a : Access) : (s.issue a).delaySource = s.delaySource := rfl

@[simp] theorem tick_h : s.tick.h = s.h := by unfold tick; split <;> rfl
@[simp] theorem tick_fsm : s.tick.fsm = s.fsm := by unfold tick; split <;> rfl
@[simp] theorem tick_busy : s.tick.busy = s.busy := by unfold tick; split <;> rfl
@[simp] theorem tick_double : s.tick.double = s.double := by unfold tick; split <;> rfl
@[simp] theorem tick_errcode : s.tick.errcode = s.errcode := by unfold tick; split <;> rfl
@[simp] theorem tick_bufcnt : s.tick.bufcnt = s.bufcnt := by unfold tick; split <;> rfl
@[simp] theorem tick_buf : s.tick.buf = s.buf := by unfold tick; split <;> rfl
@[simp] theorem tick_mlen : s.tick.mlen = s.mlen := by unfold tick; split <;> rfl
@[simp] theorem tick_data : s.tick.data = s.data := by unfold tick; split <;> rfl
@[simp] theorem tick_hostSteps : s.tick.hostSteps = s.hostSteps := by unfold tick; split <;> rfl
@[simp] theorem tick_returned : s.tick.returned = s.returned := by unfold tick; split <;> rfl
@[simp] theorem tick_busyLeft : s.tick.busyLeft = if s.busy then s.busyLeft - 1 else s.busyLeft := by
  unfold tick; split <;> rfl
@[simp] theorem tick_draw : s.tick.draw = s.draw := by unfold tick; split <;> rfl
@[simp] theorem tick_delaySource : s.tick.delaySource = s.delaySource := by unfold tick; split <;> rfl

@[simp] theorem absorbByte_fsm (x : Byte) : (s.absorbByte x).fsm = s.fsm := by
  unfold absorbByte; dsimp only; split <;> rfl
@[simp] theorem absorbByte_busy (x : Byte) : (s.absorbByte x).busy = s.busy := by
  unfold absorbByte; dsimp only; split <;> rfl
@[simp] theorem absorbByte_double (x : Byte) : (s.absorbByte x).double = s.double := by
  unfold absorbByte; dsimp only; split <;> rfl
@[simp] theorem absorbByte_errcode (x : Byte) : (s.absorbByte x).errcode = s.errcode := by
  unfold absorbByte; dsimp only; split <;> rfl
@[simp] theorem absorbByte_mlen (x : Byte) : (s.absorbByte x).mlen = s.mlen := by
  unfold absorbByte; dsimp only; split <;> rfl
@[simp] theorem absorbByte_data (x : Byte) : (s.absorbByte x).data = s.data := by
  unfold absorbByte; dsimp only; split <;> rfl
@[simp] theorem absorbByte_hostSteps (x : Byte) : (s.absorbByte x).hostSteps = s.hostSteps := by
  unfold absorbByte; dsimp only; split <;> rfl
@[simp] theorem absorbByte_returned (x : Byte) : (s.absorbByte x).returned = s.returned := by
  unfold absorbByte; dsimp only; split <;> rfl
@[simp] theorem absorbByte_busyLeft (x : Byte) : (s.absorbByte x).busyLeft = s.busyLeft := by
  unfold absorbByte; dsimp only; split <;> rfl
@[simp] theorem absorbByte_draw (x : Byte) : (s.absorbByte x).draw = s.draw := by
  unfold absorbByte; dsimp only; split <;> rfl
@[simp] theorem absorbByte_delaySource (x : Byte) : (s.absorbByte x).delaySource = s.delaySource := by
  unfold absorbByte; dsimp only; split <;> rfl

@[simp] theorem absorbBytes_fsm (xs : List Byte) : (s.absorbBytes xs).fsm = s.fsm := by
  induction xs generalizing s with
  | nil => rfl
  | cons x xs ih => simpa [absorbBytes] using ih (s.absorbByte x)
@[simp] theorem absorbBytes_busy (xs : List Byte) : (s.absorbBytes xs).busy = s.busy := by
  induction xs generalizing s with
  | nil => rfl
  | cons x xs ih => simpa [absorbBytes] using ih (s.absorbByte x)
@[simp] theorem absorbBytes_double (xs : List Byte) : (s.absorbBytes xs).double = s.double := by
  induction xs generalizing s with
  | nil => rfl
  | cons x xs ih => simpa [absorbBytes] using ih (s.absorbByte x)
@[simp] theorem absorbBytes_errcode (xs : List Byte) : (s.absorbBytes xs).errcode = s.errcode := by
  induction xs generalizing s with
  | nil => rfl
  | cons x xs ih => simpa [absorbBytes] using ih (s.absorbByte x)
@[simp] theorem absorbBytes_mlen (xs : List Byte) : (s.absorbBytes xs).mlen = s.mlen := by
  induction xs generalizing s with
  | nil => rfl
  | cons x xs ih => simpa [absorbBytes] using ih (s.absorbByte x)
@[simp] theorem absorbBytes_data (xs : List Byte) : (s.absorbBytes xs).data = s.data := by
  induction xs generalizing s with
  | nil => rfl
  | cons x xs ih => simpa [absorbBytes] using ih (s.absorbByte x)
@[simp] theorem absorbBytes_hostSteps (xs : List Byte) : (s.absorbBytes xs).hostSteps = s.hostSteps := by
  induction xs generalizing s with
  | nil => rfl
  | cons x xs ih => simpa [absorbBytes] using ih (s.absorbByte x)
@[simp] theorem absorbBytes_returned (xs : List Byte) : (s.absorbBytes xs).returned = s.returned := by
  induction xs generalizing s with
  | nil => rfl
  | cons x xs ih => simpa [absorbBytes] using ih (s.absorbByte x)
@[simp] theorem absorbBytes_busyLeft (xs : List Byte) : (s.absorbBytes xs).busyLeft = s.busyLeft := by
  induction xs generalizing s with
  | nil => rfl
  | cons x xs ih => simpa [absorbBytes] using ih (s.absorbByte x)
@[simp] theorem absorbBytes_draw (xs : List Byte) : (s.absorbBytes xs).draw = s.draw := by
  induction xs generalizing s with
  | nil => rfl
  | cons x xs ih => simpa [absorbBytes] using ih (s.absorbByte x)
@[simp] theorem absorbBytes_delaySource (xs : List Byte) : (s.absorbBytes xs).delaySource = s.delaySource := by
  induction xs generalizing s with
  | nil => rfl
  | cons x xs ih => simpa [absorbBytes] using ih (s.absorbByte x)

@[simp] theorem absorbData_h (n : Nat) :
    (s.absorbData n).h = (s.absorbBytes (absorbOperand s.data n)).h := rfl
@[simp] theorem absorbData_fsm (n : Nat) : (s.absorbData n).fsm = s.fsm := by simp [absorbData]
@[simp] theorem absorbData_busy (n : Nat) : (s.absorbData n).busy = s.busy := by simp [absorbData]
@[simp] theorem absorbData_double (n : Nat) : (s.absorbData n).double = s.double := by simp [absorbData]
@[simp] theorem absorbData_errcode (n : Nat) : (s.absorbData n).errcode = s.errcode := by simp [absorbData]
@[simp] theorem absorbData_bufcnt (n : Nat) :
    (s.absorbData n).bufcnt = (s.absorbBytes (absorbOperand s.data n)).bufcnt := rfl
@[simp] theorem absorbData_buf (n : Nat) :
    (s.absorbData n).buf = (s.absorbBytes (absorbOperand s.data n)).buf := rfl
@[simp] theorem absorbData_mlen (n : Nat) : (s.absorbData n).mlen = s.mlen + BitVec.ofNat 64 n := by
  simp [absorbData]
@[simp] theorem absorbData_data (n : Nat) : (s.absorbData n).data = s.data := by simp [absorbData]
@[simp] theorem absorbData_hostSteps (n : Nat) : (s.absorbData n).hostSteps = s.hostSteps := by simp [absorbData]
@[simp] theorem absorbData_returned (n : Nat) : (s.absorbData n).returned = s.returned := by simp [absorbData]
@[simp] theorem absorbData_busyLeft (n : Nat) : (s.absorbData n).busyLeft = s.busyLeft := by simp [absorbData]
@[simp] theorem absorbData_draw (n : Nat) : (s.absorbData n).draw = s.draw := by simp [absorbData]
@[simp] theorem absorbData_delaySource (n : Nat) : (s.absorbData n).delaySource = s.delaySource := by simp [absorbData]

end Sys2Proof.Machine.State
end

