-- ==== Sys2Proof/Laws/Ops.lean ====
section
/-! SUPPORT. For each shared operation, what it can do, said once. -/

namespace Sys2Proof.Machine

variable {s t : State}

@[simp] theorem hold_eq (s : State) : hold s = .next s := rfl
@[simp] theorem readFree_eq (v : Word) (s : State) : readFree v s = .next (s.returnRead v) := rfl
@[simp] theorem initRule_eq (s : State) : initRule s = .next s.initialise := rfl
@[simp] theorem illegalRule_eq (s : State) : illegalRule s = .next (s.raiseError .illegalCmd) := rfl
@[simp] theorem ignoreWrite_eq (s : State) : ignoreWrite s = .next s.complete := rfl

theorem readHeld_of_busy (v : Word) (hb : s.busy = true) : readHeld v s = .next s := by simp [readHeld, hb]

theorem readHeld_of_idle (v : Word) (hb : s.busy = false) : readHeld v s = .next (s.returnRead v) := by
  simp [readHeld, hb]

/-- A held read either waits or returns its value. -/
theorem readHeld_cases {v : Word} (h : readHeld v s = .next t) :
    (s.busy = true ∧ t = s) ∨ (s.busy = false ∧ t = s.returnRead v) := by
  cases hb : s.busy
  · rw [readHeld_of_idle v hb] at h
    exact .inr ⟨rfl, (Host.Outcome.next.inj h).symm⟩
  · rw [readHeld_of_busy v hb] at h
    exact .inl ⟨rfl, (Host.Outcome.next.inj h).symm⟩

theorem performCommand_of_busy {isInit : Bool} {rule : State → Result} (hb : s.busy = true) :
    performCommand isInit rule s = .next s := by simp [performCommand, hb]

theorem performCommand_of_error {rule : State → Result} (hb : s.busy = false) (he : s.fsm = .error) :
    performCommand false rule s = .next s.complete.setBusy := by simp [performCommand, hb, he]

theorem performCommand_of_legal {isInit : Bool} {rule : State → Result} (hb : s.busy = false)
    (he : s.fsm ≠ .error ∨ isInit = true) : performCommand isInit rule s = rule s.complete.setBusy := by
  rcases he with he | he <;> simp [performCommand, hb, he]

/-- A command is held, ignored, or performed by its rule. -/
theorem performCommand_cases {isInit : Bool} {rule : State → Result} {r : Result}
    (h : performCommand isInit rule s = r) :
    (s.busy = true ∧ r = .next s) ∨
    (s.busy = false ∧ s.fsm = .error ∧ isInit = false ∧ r = .next s.complete.setBusy) ∨
    (s.busy = false ∧ (s.fsm ≠ .error ∨ isInit = true) ∧ r = rule s.complete.setBusy) := by
  subst h
  cases hb : s.busy
  · by_cases he : s.fsm = .error
    · cases isInit
      · exact .inr (.inl ⟨rfl, he, rfl, performCommand_of_error hb he⟩)
      · exact .inr (.inr ⟨rfl, .inr rfl, performCommand_of_legal hb (.inr rfl)⟩)
    · exact .inr (.inr ⟨rfl, .inl he, performCommand_of_legal hb (.inl he)⟩)
  · exact .inl ⟨rfl, performCommand_of_busy hb⟩

theorem absorb_of_ok {n : Nat} (hf : s.fsm = .absorbing) (hl : s.mlen.toNat + n ≤ Config.maxMsgBytes) :
    absorb n s = .next (s.absorbData n) := by simp [absorb, hf, Nat.not_lt.mpr hl]

theorem absorb_of_badState {n : Nat} (hf : s.fsm ≠ .absorbing) :
    absorb n s = .next (s.raiseError .badState) := by simp [absorb, hf]

theorem absorb_of_overflow {n : Nat} (hf : s.fsm = .absorbing) (hl : Config.maxMsgBytes < s.mlen.toNat + n) :
    absorb n s = .next (s.raiseError .lengthOverflow) := by simp [absorb, hf, hl]

/-- ABSORB's rule always answers a next state: one of the two errors, or the bytes absorbed. -/
theorem absorb_cases (n : Nat) (s : State) :
    (s.fsm ≠ .absorbing ∧ absorb n s = .next (s.raiseError .badState)) ∨
    (s.fsm = .absorbing ∧ Config.maxMsgBytes < s.mlen.toNat + n ∧
      absorb n s = .next (s.raiseError .lengthOverflow)) ∨
    (s.fsm = .absorbing ∧ s.mlen.toNat + n ≤ Config.maxMsgBytes ∧ absorb n s = .next (s.absorbData n)) := by
  by_cases hf : s.fsm = .absorbing
  · rcases Nat.lt_or_ge Config.maxMsgBytes (s.mlen.toNat + n) with hl | hl
    · exact .inr (.inl ⟨hf, hl, absorb_of_overflow hf hl⟩)
    · exact .inr (.inr ⟨hf, hl, absorb_of_ok hf hl⟩)
  · exact .inl ⟨hf, absorb_of_badState hf⟩

/-- The rule of FINAL and FINAL_D: BAD_STATE, the effect, or the model's consistency fault. -/
theorem finalizeWith_cases (effect : State → State) (s : State) :
    (s.fsm ≠ .absorbing ∧ finalizeWith effect s = .next (s.raiseError .badState)) ∨
    (s.fsm = .absorbing ∧ s.paddingReady = true ∧ finalizeWith effect s = .next (effect s)) ∨
    (s.fsm = .absorbing ∧ s.paddingReady = false ∧ finalizeWith effect s = .fault .blockIndex) := by
  by_cases hf : s.fsm = .absorbing
  · cases hp : s.paddingReady
    · exact .inr (.inr ⟨hf, rfl, by simp [finalizeWith, hf, hp]⟩)
    · exact .inr (.inl ⟨hf, rfl, by simp [finalizeWith, hf, hp]⟩)
  · exact .inl ⟨hf, by simp [finalizeWith, hf]⟩

/-- AbsorbByte below the last place of the buffer. -/
theorem absorbByte_of_ne {x : Byte} (hc : s.bufcnt ≠ 63) :
    s.absorbByte x = { s with buf := s.buf.set s.bufcnt.toNat x s.bufcnt.isLt, bufcnt := s.bufcnt + 1 } :=
  if_neg hc

/-- AbsorbByte into the last place: the block is compressed and the buffer is empty again. -/
theorem absorbByte_of_eq {x : Byte} (hc : s.bufcnt = 63) :
    s.absorbByte x =
      { s with
        buf := s.buf.set s.bufcnt.toNat x s.bufcnt.isLt
        h := compress s.h (s.buf.set s.bufcnt.toNat x s.bufcnt.isLt)
        bufcnt := 0 } :=
  if_pos hc

/-- AbsorbByte counts modulo 64. -/
theorem absorbByte_bufcnt (s : State) (x : Byte) : (s.absorbByte x).bufcnt.toNat = (s.bufcnt.toNat + 1) % 64 := by
  by_cases hc : s.bufcnt = 63
  · rw [absorbByte_of_eq hc]; simp [hc]
  · rw [absorbByte_of_ne hc]; simp [BitVec.toNat_add]

/-- AbsorbByte of each byte counts modulo 64. -/
theorem absorbBytes_bufcnt (s : State) (xs : List Byte) :
    (s.absorbBytes xs).bufcnt.toNat = (s.bufcnt.toNat + xs.length) % 64 := by
  induction xs generalizing s with
  | nil => simp [State.absorbBytes, Nat.mod_eq_of_lt s.bufcnt.isLt]
  | cons x xs ih =>
    have := ih (s.absorbByte x)
    simp only [State.absorbBytes, List.foldl_cons, List.length_cons] at this ⊢
    rw [this, absorbByte_bufcnt]; omega

@[simp] theorem absorbOperand_length (d : Word) (n : Nat) : (absorbOperand d n).length = n := by simp [absorbOperand]

end Sys2Proof.Machine
end

