-- ==== Sys2Proof/Laws/Absorb.lean ====
section
/-! SUPPORT. What absorbing several bytes does (spec/42_commands.md R154, R155): below a full buffer it appends, across
a full buffer it compresses once and starts the next block. -/

namespace Sys2Proof.Machine

/-- Appending bytes that do not fill the buffer. -/
theorem absorbBytes_append (xs : List Byte) : ∀ s : State, s.bufcnt.toNat + xs.length < 64 →
    (s.absorbBytes xs).h = s.h
    ∧ (s.absorbBytes xs).bufcnt.toNat = s.bufcnt.toNat + xs.length
    ∧ ∀ j, j < 64 → blockByte (s.absorbBytes xs).buf j =
        if s.bufcnt.toNat ≤ j ∧ j < s.bufcnt.toNat + xs.length then xs.getD (j - s.bufcnt.toNat) 0
        else blockByte s.buf j := by
  induction xs with
  | nil =>
    intro s _
    refine ⟨rfl, rfl, fun j _ => ?_⟩
    rw [if_neg (by simp)]
    rfl
  | cons x xs ih =>
    intro s hlen
    simp only [List.length_cons] at hlen
    have hc : s.bufcnt ≠ 63 := by
      intro h
      rw [h] at hlen
      simp at hlen
      omega
    have e := absorbByte_of_ne (x := x) hc
    have hcnt : (s.absorbByte x).bufcnt.toNat = s.bufcnt.toNat + 1 := by
      rw [absorbByte_bufcnt]; omega
    obtain ⟨hh, hb, hbuf⟩ := ih (s.absorbByte x) (by omega)
    have hfold : s.absorbBytes (x :: xs) = (s.absorbByte x).absorbBytes xs := rfl
    rw [hfold]
    refine ⟨by rw [hh, e], by rw [hb, hcnt, List.length_cons]; omega, fun j hj => ?_⟩
    rw [hbuf j hj, hcnt]
    have hold : blockByte (s.absorbByte x).buf j = if j = s.bufcnt.toNat then x else blockByte s.buf j := by
      rw [e]; exact blockByte_set _ _ s.bufcnt.isLt _ _ hj
    simp only [List.length_cons]
    by_cases h1 : s.bufcnt.toNat + 1 ≤ j ∧ j < s.bufcnt.toNat + 1 + xs.length
    · rw [if_pos h1, if_pos (by omega)]
      have : j - s.bufcnt.toNat = (j - (s.bufcnt.toNat + 1)) + 1 := by omega
      rw [this, List.getD_cons_succ]
    · rw [if_neg h1, hold]
      by_cases h2 : j = s.bufcnt.toNat
      · rw [if_pos h2, if_pos (by omega)]
        simp [h2]
      · rw [if_neg h2, if_neg (by omega)]

/-- Absorbing bytes that fill the buffer: the full block is compressed once, the rest starts the next one. -/
theorem absorbBytes_fill (xs : List Byte) : ∀ s : State, 64 ≤ s.bufcnt.toNat + xs.length → xs.length ≤ 64 →
    ∃ full : Block,
      (∀ j, j < 64 → blockByte full j =
        if j < s.bufcnt.toNat then blockByte s.buf j else xs.getD (j - s.bufcnt.toNat) 0)
      ∧ (s.absorbBytes xs).h = compress s.h full
      ∧ (s.absorbBytes xs).bufcnt.toNat = s.bufcnt.toNat + xs.length - 64
      ∧ ∀ j, j < 64 → blockByte (s.absorbBytes xs).buf j =
          if j < s.bufcnt.toNat + xs.length - 64 then xs.getD (j + 64 - s.bufcnt.toNat) 0 else blockByte full j := by
  induction xs with
  | nil =>
    intro s h _
    have := s.bufcnt.isLt
    simp at h
    omega
  | cons x xs ih =>
    intro s hlen hmax
    have hlt := s.bufcnt.isLt
    simp only [List.length_cons] at hlen hmax
    have hfold : s.absorbBytes (x :: xs) = (s.absorbByte x).absorbBytes xs := rfl
    have hold : ∀ j, j < 64 →
        blockByte (s.absorbByte x).buf j = if j = s.bufcnt.toNat then x else blockByte s.buf j := by
      intro j hj
      unfold State.absorbByte
      dsimp only
      split <;> exact blockByte_set _ _ hlt _ _ hj
    by_cases hc : s.bufcnt = 63
    · have e := absorbByte_of_eq (x := x) hc
      have hn : s.bufcnt.toNat = 63 := by rw [hc]; rfl
      have hz : (s.absorbByte x).bufcnt.toNat = 0 := by rw [e]; rfl
      obtain ⟨hh, hb, hbuf⟩ := absorbBytes_append xs (s.absorbByte x) (by omega)
      rw [hfold]
      refine ⟨(s.absorbByte x).buf, fun j hj => ?_, ?_, ?_, fun j hj => ?_⟩
      · rw [hold j hj]
        by_cases h2 : j = s.bufcnt.toNat
        · rw [if_pos h2, if_neg (by omega)]; simp [h2]
        · rw [if_neg h2, if_pos (by omega)]
      · rw [hh, e]
      · rw [hb, hz, List.length_cons]; omega
      · rw [hbuf j hj, hz, List.length_cons]
        by_cases h1 : j < s.bufcnt.toNat + (xs.length + 1) - 64
        · rw [if_pos (by omega), if_pos h1]
          have : j + 64 - s.bufcnt.toNat = (j - 0) + 1 := by omega
          rw [this, List.getD_cons_succ]
        · rw [if_neg (by omega), if_neg h1]
    · have hn : s.bufcnt.toNat ≠ 63 := fun h => hc (BitVec.eq_of_toNat_eq h)
      have e := absorbByte_of_ne (x := x) hc
      have hcnt : (s.absorbByte x).bufcnt.toNat = s.bufcnt.toNat + 1 := by
        rw [absorbByte_bufcnt]; omega
      obtain ⟨full, hfull, hh, hb, hbuf⟩ := ih (s.absorbByte x) (by omega) (by omega)
      rw [hfold]
      refine ⟨full, fun j hj => ?_, by rw [hh, e], by rw [hb, hcnt, List.length_cons]; omega, fun j hj => ?_⟩
      · rw [hfull j hj, hcnt]
        by_cases h1 : j < s.bufcnt.toNat + 1
        · rw [if_pos h1, hold j hj]
          by_cases h2 : j = s.bufcnt.toNat
          · rw [if_pos h2, if_neg (by omega)]; simp [h2]
          · rw [if_neg h2, if_pos (by omega)]
        · rw [if_neg h1, if_neg (by omega)]
          have : j - s.bufcnt.toNat = (j - (s.bufcnt.toNat + 1)) + 1 := by omega
          rw [this, List.getD_cons_succ]
      · rw [hbuf j hj, hcnt, List.length_cons]
        by_cases h1 : j < s.bufcnt.toNat + (xs.length + 1) - 64
        · rw [if_pos (by omega), if_pos h1]
          have : j + 64 - s.bufcnt.toNat = (j + 64 - (s.bufcnt.toNat + 1)) + 1 := by omega
          rw [this, List.getD_cons_succ]
        · rw [if_neg (by omega), if_neg h1]

theorem absorbOperand_getD (d : Word) (n k : Nat) (hk : k < n) : (absorbOperand d n).getD k 0 = dataByte d k := by
  simp [absorbOperand, List.getD, hk]

end Sys2Proof.Machine
end

