-- ==== Sys2Proof/Laws/Decode.lean ====
section
/-! SUPPORT. The decoder as a table of words: a command word is its three fields, and so decoding tests it against seven
words; an `op7` off the table is refused. -/

namespace Sys2Proof

/-- A command word is its fields (R72). -/
theorem toNat_eq_cmdFields (c : Word) :
    c.toNat = (cmdRsv c).toNat * 256 + (cmdArg c).toNat * 16 + (cmdOp c).toNat := by
  simp [cmdRsv, cmdArg, cmdOp, BitVec.extractLsb'_toNat, Nat.shiftRight_eq_div_pow]
  omega

theorem cmdFields_cmdWord : ∀ op arg : BitVec 4,
    cmdRsv (cmdWord op arg) = 0 ∧ cmdOp (cmdWord op arg) = op ∧ cmdArg (cmdWord op arg) = arg := by
  decide +kernel

/-- The fields pick out one word. -/
theorem cmdFields_iff (c : Word) (op arg : BitVec 4) :
    c = cmdWord op arg ↔ cmdRsv c = 0 ∧ cmdOp c = op ∧ cmdArg c = arg := by
  constructor
  · rintro rfl
    exact cmdFields_cmdWord op arg
  · rintro ⟨hr, ho, ha⟩
    obtain ⟨hr', ho', ha'⟩ := cmdFields_cmdWord op arg
    apply BitVec.eq_of_toNat_eq
    rw [toNat_eq_cmdFields c, toNat_eq_cmdFields (cmdWord op arg), hr, ho, ha, hr', ho', ha']

/-- The decoder tests for seven words (R74, R79). -/
theorem decodeCmd_eq (c : Word) :
    decodeCmd c =
      if c = cmdWord 1 0 then .init
      else if c = cmdWord 2 1 then .absorb1
      else if c = cmdWord 2 2 then .absorb2
      else if c = cmdWord 2 3 then .absorb3
      else if c = cmdWord 2 4 then .absorb4
      else if c = cmdWord 3 0 then .final
      else if c = cmdWord 4 0 then .finalD
      else .illegal := by
  unfold decodeCmd
  simp only [cmdFields_iff]
  by_cases h : cmdRsv c = 0
  · simp only [h, true_and, ne_eq, not_true_eq_false, if_false]
  · simp only [h, false_and, ne_eq, not_false_eq_true, if_true, if_false]

/-- An `op7` at no multiple of 4 is on no row of the bus map. -/
theorem decodeOp7_of_misaligned {op7 : BitVec 7} (h : op7.extractLsb' 0 2 ≠ 0) (v : Word) :
    decodeOp7 op7 v = .refused .word op7 := by
  have rows : ∀ k : BitVec 7, k.extractLsb' 0 2 ≠ 0 →
      (∀ r ∈ ([0x40, 0x00, 0x04, 0x44, 0x08, 0x48, 0x0C, 0x10, 0x4C, 0x50, 0x14, 0x54, 0x18, 0x58, 0x1C, 0x5C] :
        List (BitVec 7)), k ≠ r) ∧ k &&& 0x63 ≠ 0x20 ∧ k &&& 0x63 ≠ 0x60 := by decide +kernel
  obtain ⟨hr, h20, h60⟩ := rows op7 h
  unfold decodeOp7
  repeat rw [if_neg (hr _ (by simp))]
  rw [if_neg h20, if_neg h60]

theorem hIndex_read : ∀ i : Fin 8, hIndex (op7Of false (hOffset i)) = i := by decide

theorem hIndex_write : ∀ i : Fin 8, hIndex (op7Of true (hOffset i)) = i := by decide

theorem decodeOp7_readH : ∀ (i : Fin 8) (v : Word), decodeOp7 (op7Of false (hOffset i)) v = .rdH i := by
  intro i v
  fin_cases i <;> rfl

theorem decodeOp7_writeH : ∀ (i : Fin 8) (v : Word), decodeOp7 (op7Of true (hOffset i)) v = .wrH i v := by
  intro i v
  fin_cases i <;> rfl

/-- Every `op7` at a multiple of 4 is on a row of the bus map (R74). -/
theorem aligned_op7_cases : ∀ op7 : BitVec 7, op7.extractLsb' 0 2 = 0 →
    op7 ∈ ([0x40, 0x00, 0x04, 0x44, 0x08, 0x48, 0x0C, 0x10, 0x4C, 0x50, 0x14, 0x54, 0x18, 0x58, 0x1C, 0x5C] :
      List (BitVec 7))
    ∨ (∃ i : Fin 8, op7 = op7Of false (hOffset i)) ∨ (∃ i : Fin 8, op7 = op7Of true (hOffset i)) := by
  decide +kernel

/-- A property of decoding holds for every aligned `op7` if it holds row by row. -/
theorem aligned_op7_induction {P : BitVec 7 → Prop}
    (rows : ∀ r ∈ ([0x40, 0x00, 0x04, 0x44, 0x08, 0x48, 0x0C, 0x10, 0x4C, 0x50, 0x14, 0x54, 0x18, 0x58, 0x1C, 0x5C] :
      List (BitVec 7)), P r)
    (readH : ∀ i, P (op7Of false (hOffset i))) (writeH : ∀ i, P (op7Of true (hOffset i)))
    (op7 : BitVec 7) (h : op7.extractLsb' 0 2 = 0) : P op7 := by
  rcases aligned_op7_cases op7 h with hr | ⟨i, rfl⟩ | ⟨i, rfl⟩
  · exact rows op7 hr
  · exact readH i
  · exact writeH i

/-- The row (refused) is reached only by an access the window does not support (R52). -/
theorem decodeOp7_of_aligned (op7 : BitVec 7) (h : op7.extractLsb' 0 2 = 0) (v : Word) :
    decodeOp7 op7 v ≠ .refused .word op7 := by
  refine aligned_op7_induction (P := fun k => decodeOp7 k v ≠ .refused .word k) ?_ ?_ ?_ op7 h
  · intro r hr
    fin_cases hr <;> exact nofun
  · intro i
    rw [decodeOp7_readH]
    exact nofun
  · intro i
    rw [decodeOp7_writeH]
    exact nofun

end Sys2Proof
end

