-- ==== Sys2Proof/Laws/Exec.lean ====
section
/-! SUPPORT. exec inverted: a command performs the rule of what its word decodes to, any other access waits, passes, reads
or stages. Later proofs split on these cases and never unfold the meanings. -/

namespace Sys2Proof

open Machine

/-- The command an instruction performs, if it is one. -/
def Instr.command : Instr → Option Command
  | .init => some .init
  | .absorb1 => some .absorb1
  | .absorb2 => some .absorb2
  | .absorb3 => some .absorb3
  | .absorb4 => some .absorb4
  | .final => some .final
  | .finalD => some .finalD
  | .illegal _ => some .illegal
  | .wrCmd c => some (decodeCmd c)
  | .rdCmd | .rdStatus | .wrStatus _ | .rdData | .wrData _ | .rdLenLo | .rdLenHi | .wrLenLo _ | .wrLenHi _ => none
  | .rdReserved14 | .wrReserved14 _ | .rdReserved18 | .wrReserved18 _ | .rdReserved1C | .wrReserved1C _ => none
  | .rdH _ | .wrH _ _ | .refused _ _ => none

/-- The byte count of an ABSORB. -/
def Command.count : Command → Option Nat
  | .absorb1 => some 1
  | .absorb2 => some 2
  | .absorb3 => some 3
  | .absorb4 => some 4
  | .init | .final | .finalD | .illegal => none

/-- The rule a command performs. -/
def Command.rule : Command → State → Result
  | .init => initRule
  | .absorb1 => absorb 1
  | .absorb2 => absorb 2
  | .absorb3 => absorb 3
  | .absorb4 => absorb 4
  | .final => finalizeWith State.finalState
  | .finalD => finalizeWith State.finalDState
  | .illegal => illegalRule

/-- Whether the command is INIT. -/
def Command.isInit : Command → Bool
  | .init => true
  | .absorb1 | .absorb2 | .absorb3 | .absorb4 | .final | .finalD | .illegal => false

theorem command_ite {p : Prop} [Decidable p] {i j : Instr} (hi : i.command = none) (hj : j.command = none) :
    (if p then i else j).command = none := by
  split <;> assumption

/-- The only bus operation that carries a command is WR CMD. -/
theorem decodeOp7_command (op7 : BitVec 7) (v : Word) :
    (decodeOp7 op7 v).command = if op7 = 0x40 then some (decodeCmd v) else none := by
  unfold decodeOp7
  by_cases h : op7 = 0x40
  · rw [if_pos h, if_pos h]; rfl
  · rw [if_neg h, if_neg h]
    repeat (first | rfl | refine command_ite rfl ?_)

/-- A bus access that carries a command is a WR CMD of its word. -/
theorem decodeBus_command {a : Access} {d : Command} (h : (decodeBus a).command = some d) :
    decodeBus a = .wrCmd a.wdata ∧ d = decodeCmd a.wdata := by
  obtain ⟨width, op7, v⟩ := a
  cases width
  case word =>
    have e := decodeOp7_command op7 v
    rw [show (decodeOp7 op7 v).command = some d from h] at e
    by_cases hc : op7 = 0x40
    · rw [if_pos hc] at e
      exact ⟨if_pos hc, Option.some.inj e⟩
    · rw [if_neg hc] at e
      cases e
  all_goals cases h

namespace Machine

variable {s t : State}

/-- A command instruction performs the rule of its command (R150). -/
theorem exec_of_command {i : Instr} {d : Command} (h : i.command = some d) (s : State) :
    exec i s = performCommand d.isInit d.rule s := by
  cases i
  case wrCmd c =>
    obtain rfl : decodeCmd c = d := Option.some.inj h
    simp only [exec, execWrCmd]
    cases decodeCmd c <;> rfl
  all_goals first | (cases h; rfl) | cases h

/-- The ways the rule of command `d` takes `s` to a next state `t`. -/
inductive RuleEnds (d : Command) (s t : State) : Prop where
  | init (hd : d = .init) (ht : t = s.initialise)
  | illegal (hd : d = .illegal) (ht : t = s.raiseError .illegalCmd)
  | badState (hi : d ≠ .init) (hl : d ≠ .illegal) (hf : s.fsm ≠ .absorbing) (ht : t = s.raiseError .badState)
  | overflow (n : Nat) (hd : d.count = some n) (hf : s.fsm = .absorbing)
      (hl : Config.maxMsgBytes < s.mlen.toNat + n) (ht : t = s.raiseError .lengthOverflow)
  | absorbed (n : Nat) (hd : d.count = some n) (hf : s.fsm = .absorbing)
      (hl : s.mlen.toNat + n ≤ Config.maxMsgBytes) (ht : t = s.absorbData n)
  | final (hd : d = .final) (hf : s.fsm = .absorbing) (hp : s.paddingReady = true) (ht : t = s.finalState)
  | finalD (hd : d = .finalD) (hf : s.fsm = .absorbing) (hp : s.paddingReady = true) (ht : t = s.finalDState)

/-- No rule of a command touches BUSY or the draws. -/
theorem RuleEnds.draws {d : Command} (h : RuleEnds d s t) :
    t.busy = s.busy ∧ t.busyLeft = s.busyLeft ∧ t.draw = s.draw ∧ t.delaySource = s.delaySource := by
  cases h <;> subst t <;> simp

/-- A performed command rule ends in one of these ways. -/
theorem rule_cases {d : Command} (h : d.rule s = .next t) : RuleEnds d s t := by
  have absorbs : ∀ n, d.count = some n → d ≠ .init → d ≠ .illegal → absorb n s = .next t → RuleEnds d s t := by
    intro n hc h1 h2 h
    rcases absorb_cases n s with ⟨hf, e⟩ | ⟨hf, hl, e⟩ | ⟨hf, hl, e⟩ <;> rw [e] at h <;>
      have e' := (Host.Outcome.next.inj h).symm
    · exact .badState h1 h2 hf e'
    · exact .overflow n hc hf hl e'
    · exact .absorbed n hc hf hl e'
  cases d
  case init => exact .init rfl (Host.Outcome.next.inj h).symm
  case illegal => exact .illegal rfl (Host.Outcome.next.inj h).symm
  case absorb1 => exact absorbs 1 rfl nofun nofun h
  case absorb2 => exact absorbs 2 rfl nofun nofun h
  case absorb3 => exact absorbs 3 rfl nofun nofun h
  case absorb4 => exact absorbs 4 rfl nofun nofun h
  case final =>
    rcases finalizeWith_cases State.finalState s with ⟨hf, e⟩ | ⟨hf, hp, e⟩ | ⟨hf, hp, e⟩ <;>
      replace h := e.symm.trans h
    · exact .badState nofun nofun hf (Host.Outcome.next.inj h).symm
    · exact .final rfl hf hp (Host.Outcome.next.inj h).symm
    · cases h
  case finalD =>
    rcases finalizeWith_cases State.finalDState s with ⟨hf, e⟩ | ⟨hf, hp, e⟩ | ⟨hf, hp, e⟩ <;>
      replace h := e.symm.trans h
    · exact .badState nofun nofun hf (Host.Outcome.next.inj h).symm
    · exact .finalD rfl hf hp (Host.Outcome.next.inj h).symm
    · cases h

/-- A command that is not held and not ignored ends by its rule, started with BUSY set and the access done. -/
theorem exec_command_cases {i : Instr} {d : Command} (hi : i.command = some d) (h : exec i s = .next t) :
    (s.busy = true ∧ t = s)
    ∨ (s.busy = false ∧ s.fsm = .error ∧ d ≠ .init ∧ t = s.complete.setBusy)
    ∨ (s.busy = false ∧ (s.fsm ≠ .error ∨ d = .init) ∧ RuleEnds d s.complete.setBusy t) := by
  rw [exec_of_command hi] at h
  rcases performCommand_cases h with ⟨hb, e⟩ | ⟨hb, he, hn, e⟩ | ⟨hb, hl, e⟩
  · exact .inl ⟨hb, Host.Outcome.next.inj e⟩
  · exact .inr (.inl ⟨hb, he, (by rintro rfl; cases hn), Host.Outcome.next.inj e⟩)
  · refine .inr (.inr ⟨hb, ?_, rule_cases e.symm⟩)
    rcases hl with hl | hl
    · exact .inl hl
    · right
      cases d <;> first | rfl | cases hl

/-- The ways an access that is no command takes `s` to a next state `t`. -/
inductive AccessEnds (s t : State) : Prop where
  | held (hb : s.busy = true) (ht : t = s)
  | ignored (ht : t = s.complete)
  | read (v : Word) (ht : t = s.returnRead v)
  | staged (v : Word) (ht : t = s.stage v)

/-- An access that is no command waits, passes, reads or stages. -/
theorem exec_access_cases {i : Instr} (hi : i.command = none) (h : exec i s = .next t) : AccessEnds s t := by
  have held : ∀ v, readHeld v s = .next t → AccessEnds s t := by
    intro v h
    rcases readHeld_cases h with ⟨hb, e⟩ | ⟨_, e⟩
    · exact .held hb e
    · exact .read v e
  cases i
  case rdLenLo => exact held _ h
  case rdLenHi => exact held _ h
  case rdH i => exact held _ h
  case wrData v => exact .staged v (Host.Outcome.next.inj h).symm
  case rdCmd => exact .read _ (Host.Outcome.next.inj h).symm
  case rdStatus => exact .read _ (Host.Outcome.next.inj h).symm
  case rdData => exact .read _ (Host.Outcome.next.inj h).symm
  case rdReserved14 => exact .read _ (Host.Outcome.next.inj h).symm
  case rdReserved18 => exact .read _ (Host.Outcome.next.inj h).symm
  case rdReserved1C => exact .read _ (Host.Outcome.next.inj h).symm
  case refused w o => cases h
  all_goals first | exact .ignored (Host.Outcome.next.inj h).symm | cases hi

/-- No instruction changes the sequence the delays come from. -/
theorem exec_delaySource {i : Instr} (h : exec i s = .next t) : t.delaySource = s.delaySource := by
  cases hi : i.command with
  | none => rcases exec_access_cases hi h with ⟨_, rfl⟩ | rfl | ⟨_, rfl⟩ | ⟨_, rfl⟩ <;> simp
  | some d =>
    rcases exec_command_cases hi h with ⟨_, rfl⟩ | ⟨_, _, _, rfl⟩ | ⟨_, _, hr⟩
    · rfl
    · simp
    · simp [hr.draws]

end Machine

end Sys2Proof
end

