-- ==== Sys2Proof/Laws/Step.lean ====
section
/-! SUPPORT. What one step can do, said once, and the induction over runs, packaged once. -/

namespace Sys2Proof.Machine

variable {s t : State}

/-- A poll ends as its RD STATUS ends: the host moves on, or stays in its WAIT loop while the value has bit 0 set. -/
theorem performPoll_eq (s : State) :
    performPoll s = .next (s.afterPoll (s.tick.returnRead s.tick.statusWord)) := rfl

/-- The step inverted: a reset, FINISH, an access, a poll, a pause, or time passing with an idle host. -/
theorem step_cases {r : Result} (h : step s = r) :
    (∃ rest, s.hostSteps = .reset :: rest ∧ r = .next s.resetEngine) ∨
    ((∀ rest, s.hostSteps ≠ .reset :: rest) ∧ s.finishDue = true ∧ r = .next s.finish) ∨
    (∃ a rest, s.hostSteps = .access a :: rest ∧ s.finishDue = false ∧ r = exec (decodeBus a) s.tick) ∨
    (∃ rest, s.hostSteps = .wait :: rest ∧ s.finishDue = false ∧ r = performPoll s) ∨
    (∃ rest, s.hostSteps = .pause :: rest ∧ s.finishDue = false ∧ r = .next s.tick.complete) ∨
    (s.hostSteps = [] ∧ s.finishDue = false ∧ r = .next s.tick) := by
  subst h
  unfold step
  split
  next rest hs => exact .inl ⟨rest, hs, rfl⟩
  next a rest hs =>
    split
    next hd => exact .inr (.inl ⟨by simp [hs], hd, rfl⟩)
    next hd => exact .inr (.inr (.inl ⟨a, rest, hs, by simpa using hd, rfl⟩))
  next rest hs =>
    split
    next hd => exact .inr (.inl ⟨by simp [hs], hd, rfl⟩)
    next hd => exact .inr (.inr (.inr (.inl ⟨rest, hs, by simpa using hd, rfl⟩)))
  next rest hs =>
    split
    next hd => exact .inr (.inl ⟨by simp [hs], hd, rfl⟩)
    next hd => exact .inr (.inr (.inr (.inr (.inl ⟨rest, hs, by simpa using hd, rfl⟩))))
  next hs =>
    split
    next hd => exact .inr (.inl ⟨by simp [hs], hd, rfl⟩)
    next hd => exact .inr (.inr (.inr (.inr (.inr ⟨hs, by simpa using hd, rfl⟩))))

theorem run_zero (s : State) : Sys2Proof.core.run 0 s = .next s := rfl

theorem run_succ_of_next {k : Nat} (h : step s = .next t) : Sys2Proof.core.run (k + 1) s = Sys2Proof.core.run k t := by
  simp only [Host.Core.run]
  rw [show Sys2Proof.core.step s = .next t from h]

theorem run_succ_of_fault {k : Nat} {r : Fault} (h : step s = .fault r) :
    Sys2Proof.core.run (k + 1) s = .fault r := by
  simp only [Host.Core.run]
  rw [show Sys2Proof.core.step s = .fault r from h]

theorem run_succ_of_refused {k : Nat} {r : Refusal} (h : step s = .refused r) :
    Sys2Proof.core.run (k + 1) s = .refused r := by
  simp only [Host.Core.run]
  rw [show Sys2Proof.core.step s = .refused r from h]

/-- Runs compose. -/
theorem run_add {j k : Nat} (h : Sys2Proof.core.run j s = .next t) :
    Sys2Proof.core.run (j + k) s = Sys2Proof.core.run k t := by
  induction j generalizing s with
  | zero => cases Host.Outcome.next.inj h; simp
  | succ j ih =>
    cases hs : step s with
    | next u =>
      rw [run_succ_of_next hs] at h
      rw [Nat.add_right_comm, run_succ_of_next hs, ih h]
    | fault r => rw [run_succ_of_fault hs] at h; cases h
    | refused r => rw [run_succ_of_refused hs] at h; cases h

/-- A property that every step keeps, and under which every step has a next state, holds along every run. -/
theorem run_induction {P : State → Prop} (hstep : ∀ s, P s → ∃ t, step s = .next t ∧ P t) (hs : P s) (k : Nat) :
    ∃ t, Sys2Proof.core.run k s = .next t ∧ P t := by
  induction k generalizing s with
  | zero => exact ⟨s, rfl, hs⟩
  | succ k ih =>
    obtain ⟨u, hu, hp⟩ := hstep s hs
    obtain ⟨t, ht, hq⟩ := ih hp
    exact ⟨t, by rw [run_succ_of_next hu, ht], hq⟩

end Sys2Proof.Machine
end

