-- ==== Sys2Proof/Laws/Engine.lean ====
section
/-! SUPPORT. The step inverted for the engine's state (R20): a reset, a performed command, or a step that leaves H, FSM,
DOUBLE, ERRCODE, BUFCNT, BUF and MLEN alone. Proofs about these fields split on the three cases. -/

namespace Sys2Proof.Machine

variable {s t : State}

/-- Time passing changes only the delay left. -/
theorem tick_eq (s : State) : s.tick = { s with busyLeft := s.tick.busyLeft } := by
  unfold State.tick; split <;> rfl

theorem tick_of_idle (hb : s.busy = false) : s.tick = s := by simp [State.tick, hb]

/-- A poll that goes on changes only what the host does next. -/
theorem afterPoll_eq (s t : State) : s.afterPoll t = { t with hostSteps := (s.afterPoll t).hostSteps } := by
  unfold State.afterPoll; split <;> rfl

/-- No step changes the sequence the delays come from. -/
theorem step_delaySource (h : step s = .next t) : t.delaySource = s.delaySource := by
  rcases step_cases h with ⟨_, _, e⟩ | ⟨_, _, e⟩ | ⟨_, _, _, _, e⟩ | ⟨_, _, _, e⟩ | ⟨_, _, _, e⟩ | ⟨_, _, e⟩
  · cases e; simp
  · cases e; simp
  · simpa using exec_delaySource e.symm
  · rw [performPoll_eq, afterPoll_eq] at e; cases e; simp
  · cases e; simp
  · cases e; simp

/-- The items a command's rule may write are the same. -/
structure SameEngine (s t : State) : Prop where
  h       : t.h = s.h
  fsm     : t.fsm = s.fsm
  double  : t.double = s.double
  errcode : t.errcode = s.errcode
  bufcnt  : t.bufcnt = s.bufcnt
  buf     : t.buf = s.buf
  mlen    : t.mlen = s.mlen

theorem SameEngine.refl (s : State) : SameEngine s s := ⟨rfl, rfl, rfl, rfl, rfl, rfl, rfl⟩

theorem SameEngine.of_tick (h : SameEngine s.tick t) : SameEngine s t := by
  rw [tick_eq] at h
  exact ⟨h.h, h.fsm, h.double, h.errcode, h.bufcnt, h.buf, h.mlen⟩

/-- An access that is no command leaves them alone. -/
theorem AccessEnds.sameEngine (h : AccessEnds s t) : SameEngine s t := by
  rcases h with ⟨_, rfl⟩ | rfl | ⟨v, rfl⟩ | ⟨v, rfl⟩ <;> exact ⟨rfl, rfl, rfl, rfl, rfl, rfl, rfl⟩

/-- The step inverted for the engine's state. -/
theorem step_engine_cases (h : step s = .next t) :
    (∃ rest, s.hostSteps = .reset :: rest ∧ t = s.resetEngine)
    ∨ SameEngine s t
    ∨ (∃ a c rest, s.hostSteps = .access a :: rest ∧ decodeBus a = .wrCmd c ∧ s.busy = false
        ∧ (s.fsm ≠ .error ∨ decodeCmd c = .init) ∧ RuleEnds (decodeCmd c) s.complete.setBusy t) := by
  rcases step_cases h with ⟨rest, hs, e⟩ | ⟨_, _, e⟩ | ⟨a, rest, hs, _, e⟩ | ⟨rest, hs, _, e⟩ | ⟨_, _, _, e⟩
    | ⟨_, _, e⟩
  · exact .inl ⟨rest, hs, Host.Outcome.next.inj e⟩
  · cases e
    exact .inr (.inl ⟨rfl, rfl, rfl, rfl, rfl, rfl, rfl⟩)
  · cases hi : (decodeBus a).command with
    | none => exact .inr (.inl (exec_access_cases hi e.symm).sameEngine.of_tick)
    | some d =>
      rcases exec_command_cases hi e.symm with ⟨_, rfl⟩ | ⟨_, _, _, rfl⟩ | ⟨hb, he, hr⟩
      · exact .inr (.inl (SameEngine.refl _).of_tick)
      · refine .inr (.inl (SameEngine.of_tick ⟨rfl, rfl, rfl, rfl, rfl, rfl, rfl⟩))
      · obtain ⟨hc, rfl⟩ := decodeBus_command hi
        have hb' : s.busy = false := by rw [tick_eq] at hb; exact hb
        rw [tick_of_idle hb'] at he hr
        exact .inr (.inr ⟨a, a.wdata, rest, hs, hc, hb', he, hr⟩)
  · rw [performPoll_eq, afterPoll_eq] at e
    cases e
    exact .inr (.inl (SameEngine.of_tick ⟨rfl, rfl, rfl, rfl, rfl, rfl, rfl⟩))
  · cases e
    exact .inr (.inl (SameEngine.of_tick ⟨rfl, rfl, rfl, rfl, rfl, rfl, rfl⟩))
  · cases e
    exact .inr (.inl (SameEngine.refl _).of_tick)

end Sys2Proof.Machine
end

