-- ==== Sys2Proof/Laws/PerInstr.lean ====
section
/-! SUPPORT. Statements made for all instructions, one lemma per constructor (LAWS.json names the families). -/

/-- The H offsets are multiples of 4 (R51). -/
theorem Sys2Proof.hOffset_aligned :
    ∀ (write : Bool) (i : Fin 8), (op7Of write (hOffset i)).extractLsb' 0 2 = 0 := by decide

namespace Sys2Proof.Laws.CarriedByOneAccess

/-- The instruction is carried by one 32-bit access of the window, or is one the window does not support: a CMD row is
the data of a write to CMD (R70, R77), a BUS row is its own access (R71), and (refused) is the access refused (R52). -/
def Statement (i : Instr) : Prop :=
  (∃ c, encode i = .cmd c ∧ i.toAccess = ⟨.word, 0x40, c⟩)
  ∨ (∃ op7 v, encode i = .bus ⟨.word, op7, v⟩ ∧ i.toAccess = ⟨.word, op7, v⟩ ∧ op7.extractLsb' 0 2 = 0)
  ∨ (∃ width op7, i = .refused width op7)

theorem init : Statement .init := .inl ⟨_, rfl, rfl⟩
theorem absorb1 : Statement .absorb1 := .inl ⟨_, rfl, rfl⟩
theorem absorb2 : Statement .absorb2 := .inl ⟨_, rfl, rfl⟩
theorem absorb3 : Statement .absorb3 := .inl ⟨_, rfl, rfl⟩
theorem absorb4 : Statement .absorb4 := .inl ⟨_, rfl, rfl⟩
theorem final : Statement .final := .inl ⟨_, rfl, rfl⟩
theorem finalD : Statement .finalD := .inl ⟨_, rfl, rfl⟩
theorem illegal (c : Word) : Statement (.illegal c) := .inl ⟨c, rfl, rfl⟩
theorem wrCmd (c : Word) : Statement (.wrCmd c) := .inr (.inl ⟨_, c, rfl, rfl, rfl⟩)
theorem rdCmd : Statement .rdCmd := .inr (.inl ⟨_, _, rfl, rfl, rfl⟩)
theorem rdStatus : Statement .rdStatus := .inr (.inl ⟨_, _, rfl, rfl, rfl⟩)
theorem wrStatus (v : Word) : Statement (.wrStatus v) := .inr (.inl ⟨_, v, rfl, rfl, rfl⟩)
theorem rdData : Statement .rdData := .inr (.inl ⟨_, _, rfl, rfl, rfl⟩)
theorem wrData (v : Word) : Statement (.wrData v) := .inr (.inl ⟨_, v, rfl, rfl, rfl⟩)
theorem rdLenLo : Statement .rdLenLo := .inr (.inl ⟨_, _, rfl, rfl, rfl⟩)
theorem rdLenHi : Statement .rdLenHi := .inr (.inl ⟨_, _, rfl, rfl, rfl⟩)
theorem wrLenLo (v : Word) : Statement (.wrLenLo v) := .inr (.inl ⟨_, v, rfl, rfl, rfl⟩)
theorem wrLenHi (v : Word) : Statement (.wrLenHi v) := .inr (.inl ⟨_, v, rfl, rfl, rfl⟩)
theorem rdReserved14 : Statement .rdReserved14 := .inr (.inl ⟨_, _, rfl, rfl, rfl⟩)
theorem wrReserved14 (v : Word) : Statement (.wrReserved14 v) := .inr (.inl ⟨_, v, rfl, rfl, rfl⟩)
theorem rdReserved18 : Statement .rdReserved18 := .inr (.inl ⟨_, _, rfl, rfl, rfl⟩)
theorem wrReserved18 (v : Word) : Statement (.wrReserved18 v) := .inr (.inl ⟨_, v, rfl, rfl, rfl⟩)
theorem rdReserved1C : Statement .rdReserved1C := .inr (.inl ⟨_, _, rfl, rfl, rfl⟩)
theorem wrReserved1C (v : Word) : Statement (.wrReserved1C v) := .inr (.inl ⟨_, v, rfl, rfl, rfl⟩)

theorem rdH (i : Fin 8) : Statement (.rdH i) := .inr (.inl ⟨_, _, rfl, rfl, hOffset_aligned false i⟩)
theorem wrH (i : Fin 8) (v : Word) : Statement (.wrH i v) := .inr (.inl ⟨_, v, rfl, rfl, hOffset_aligned true i⟩)
theorem refused (width : AccessWidth) (op7 : BitVec 7) : Statement (.refused width op7) :=
  .inr (.inr ⟨width, op7, rfl⟩)

end Sys2Proof.Laws.CarriedByOneAccess
end

