-- ==== Sys2Proof/Tests/Slice0.lean ====
section
/-! SUPPORT. The model's own tests. Expected values stand in spec/95_test_vectors.md (K, E, B and V rows) or in the rule
a test names. Then, for every statement with hypotheses, a named witness that meets them. -/

namespace Sys2Proof.Tests

-- one theorem after another: many at once need more memory than the check allows
set_option Elab.async false

open Sys2Proof Sys2Proof.Machine

/-! ## Helpers -/

/-- The result is a next state with the property `p`. -/
def ends (r : Result) (p : State → Bool) : Bool :=
  match r with
  | .next t => p t
  | .fault _ => false
  | .refused _ => false

/-- So the result is a next state with that property. -/
theorem exists_of_ends {r : Result} {p : State → Bool} (h : ends r p = true) : ∃ t, r = .next t ∧ p t = true := by
  cases r with
  | next t => exact ⟨t, rfl, h⟩
  | fault _ => cases h
  | refused _ => cases h

/-- The same for a run. -/
def endsRun (r : Host.Outcome core.State core.Fault core.Refusal) (p : State → Bool) : Bool :=
  match r with
  | .next t => p t
  | .fault _ => false
  | .refused _ => false

/-- Reset, with `xs` absorbed. -/
def holding (xs : List Byte) : State :=
  { State.reset.absorbBytes xs with mlen := BitVec.ofNat 64 xs.length }

/-- An open message of which only the counts are given. -/
def counts (mlen bufcnt : Nat) : State :=
  { State.reset with mlen := BitVec.ofNat 64 mlen, bufcnt := BitVec.ofNat 6 bufcnt }

/-- An open message of `n` bytes `a`, the last `n mod 64` of them in the buffer. -/
def holdingAs (n : Nat) : State := { counts n (n % 64) with buf := Vector.replicate 64 0x61 }

/-- After a finalising command. -/
def finished : State := { State.reset with fsm := .done }

/-- After a failed command: BAD_STATE. -/
def failed : State := { State.reset with fsm := .error, errcode := .badState }

/-- BUSY, with `n` engine steps left before FINISH. -/
def busyFor (n : Nat) : State := { State.reset with busy := true, busyLeft := n }

/-- `s` with the host's list. -/
def State.doing (s : State) (xs : List HostStep) : State := { s with hostSteps := xs }

/-- The state K2 of spec/95_test_vectors.md: "abc" absorbed. -/
def k2 : State := { holding [0x61, 0x62, 0x63] with data := 0x61626300 }

/-- 62 bytes `a` absorbed and the next word staged, as K8 starts. -/
def k8 : State := { holding (List.replicate 62 0x61) with data := 0x62636465 }

/-! ## Well-formedness: ill-formed terms are refused -/

theorem test_wf_illegal_init : (Instr.illegal 0x00000001).wf = false := by decide
theorem test_wf_illegal_absorb : (Instr.illegal 0x00000042).wf = false := by decide
theorem test_wf_illegal_op : (Instr.illegal 0x00000005).wf = true := by decide
theorem test_wf_illegal_arg : (Instr.illegal 0x00000052).wf = true ∧ (Instr.illegal 0x00000013).wf = true := by decide
theorem test_wf_illegal_rsv : (Instr.illegal 0x00000101).wf = true := by decide
theorem test_wf_refused_word : (Instr.refused .word 0x04).wf = false := by decide
theorem test_wf_refused_half : (Instr.refused .half 0x04).wf = true := by decide
theorem test_wf_refused_misaligned : (Instr.refused .word 0x06).wf = true := by decide

/-! ## Decoding: the words of R72, R74 and R71, written out -/

theorem test_decode_init : decodeTableWord 32 0b00000000000000000000000000000001 = some .init := by decide
theorem test_decode_absorb1 : decodeTableWord 32 0b00000000000000000000000000010010 = some .absorb1 := by decide
theorem test_decode_absorb2 : decodeTableWord 32 0b00000000000000000000000000100010 = some .absorb2 := by decide
theorem test_decode_absorb3 : decodeTableWord 32 0b00000000000000000000000000110010 = some .absorb3 := by decide
theorem test_decode_absorb4 : decodeTableWord 32 0b00000000000000000000000001000010 = some .absorb4 := by decide
theorem test_decode_final : decodeTableWord 32 0b00000000000000000000000000000011 = some .final := by decide
theorem test_decode_finalD : decodeTableWord 32 0b00000000000000000000000000000100 = some .finalD := by decide

/-- The ILLEGAL rows of the decode table of spec/95_test_vectors.md 2.5. -/
theorem test_decode_illegal :
    decodeTableWord 32 0x00000000 = some (.illegal 0x00000000)
    ∧ decodeTableWord 32 0x00000002 = some (.illegal 0x00000002)
    ∧ decodeTableWord 32 0x00000005 = some (.illegal 0x00000005)
    ∧ decodeTableWord 32 0x0000000f = some (.illegal 0x0000000f)
    ∧ decodeTableWord 32 0x00000011 = some (.illegal 0x00000011)
    ∧ decodeTableWord 32 0x00000013 = some (.illegal 0x00000013) := by decide
theorem test_decode_illegal_arg_rsv :
    decodeTableWord 32 0x00000014 = some (.illegal 0x00000014)
    ∧ decodeTableWord 32 0x00000052 = some (.illegal 0x00000052)
    ∧ decodeTableWord 32 0x000000f2 = some (.illegal 0x000000f2)
    ∧ decodeTableWord 32 0x00000101 = some (.illegal 0x00000101)
    ∧ decodeTableWord 32 0x80000001 = some (.illegal 0x80000001)
    ∧ decodeTableWord 32 0xffffffff = some (.illegal 0xffffffff) := by decide

theorem test_decode_wrCmd : decodeTableWord 8 0b01000000 = some (.wrCmd 0) := by decide
theorem test_decode_wrCmd_data : decodeTableWord 40 0x0000003240 = some (.wrCmd 0x00000032) := by decide
theorem test_decode_rdCmd : decodeTableWord 8 0b00000000 = some .rdCmd := by decide
theorem test_decode_rdStatus : decodeTableWord 8 0b00000100 = some .rdStatus := by decide
theorem test_decode_wrStatus : decodeTableWord 8 0b01000100 = some (.wrStatus 0) := by decide
theorem test_decode_rdData : decodeTableWord 8 0b00001000 = some .rdData := by decide
theorem test_decode_wrData : decodeTableWord 40 0x6162630048 = some (.wrData 0x61626300) := by decide
theorem test_decode_rdLenLo : decodeTableWord 8 0b00001100 = some .rdLenLo := by decide
theorem test_decode_rdLenHi : decodeTableWord 8 0b00010000 = some .rdLenHi := by decide
theorem test_decode_wrLenLo : decodeTableWord 8 0b01001100 = some (.wrLenLo 0) := by decide
theorem test_decode_wrLenHi : decodeTableWord 8 0b01010000 = some (.wrLenHi 0) := by decide
theorem test_decode_rdReserved14 : decodeTableWord 8 0b00010100 = some .rdReserved14 := by decide
theorem test_decode_wrReserved14 : decodeTableWord 8 0b01010100 = some (.wrReserved14 0) := by decide
theorem test_decode_rdReserved18 : decodeTableWord 8 0b00011000 = some .rdReserved18 := by decide
theorem test_decode_wrReserved18 : decodeTableWord 8 0b01011000 = some (.wrReserved18 0) := by decide
theorem test_decode_rdReserved1C : decodeTableWord 8 0b00011100 = some .rdReserved1C := by decide
theorem test_decode_wrReserved1C : decodeTableWord 8 0b01011100 = some (.wrReserved1C 0) := by decide

/-- All eight H offsets, `0b01iii00` and `0b11iii00`. -/
theorem test_decode_rdH_wrH : ∀ i : Fin 8,
    decodeTableWord 8 (0b00100000 + 4 * i.val) = some (.rdH i)
    ∧ decodeTableWord 8 (0b01100000 + 4 * i.val) = some (.wrH i 0) := by decide

/-- B8: 0x41, 0x42, 0x43, 0x06 and any sub-word access. -/
theorem test_decode_refused :
    decodeTableWord 8 0b01000001 = some (.refused .word 0x41) ∧ decodeTableWord 8 0b01000010 = some (.refused .word 0x42)
    ∧ decodeTableWord 8 0b01000011 = some (.refused .word 0x43) ∧ decodeTableWord 8 0b00000110 = some (.refused .word 0x06)
    ∧ decodeBus ⟨.byte, 0x40, 0⟩ = .refused .byte 0x40 ∧ decodeBus ⟨.half, 0x04, 0⟩ = .refused .half 0x04 := by decide

theorem test_decode_rejects :
    decodeTableWord 8 0b10000000 = none ∧ decodeTableWord 7 0 = none ∧ decodeTableWord 32 (2 ^ 32) = none := by decide

/-- withFetchWord: the next step runs the word. -/
theorem test_fetch_final : ends (step (State.reset.withFetchWord 32 0x00000003)) (fun t => t.fsm == .done) = true := by
  decide +kernel

/-! ## Primitives (table 2.1) and padding (V-S7, table 2.3) -/

theorem test_sigmas : bigSigma0 0x12345678 = 0x66146474 ∧ bigSigma1 0x12345678 = 0x3561abda
    ∧ smallSigma0 0x12345678 = 0xe7fce6ee ∧ smallSigma1 0x12345678 = 0xa1f78649 := by decide

theorem test_ch_maj : ch 0xf0f0f0f0 0xff00ff00 0x0ff00ff0 = 0xff00ff00
    ∧ maj 0xf0f0f0f0 0xff00ff00 0x0ff00ff0 = 0xfff0fff0 := by decide

/-- The block of "abc" (V-S1). -/
def abcBlock : Block := tabulate fun j => if j = 63 then 0x18 else [0x61, 0x62, 0x63, 0x80].getD j 0

theorem test_abcBlock : (blocks [0x61, 0x62, 0x63]).map Vector.toList = [abcBlock.toList] := by decide +kernel

/-- V-C1: its schedule. -/
theorem test_schedule : (schedule abcBlock).getD 0 0 = 0x61626380 ∧ (schedule abcBlock).getD 15 0 = 0x00000018
    ∧ (schedule abcBlock).getD 16 0 = 0x61626380 ∧ (schedule abcBlock).getD 17 0 = 0x000f0000
    ∧ (schedule abcBlock).getD 63 0 = 0x12b1edeb := by decide +kernel

/-- V-C1: round 0. -/
theorem test_round : workRound (workInit h0init) (0x428a2f98, 0x61626380) =
    ⟨0x5d6aebcd, 0x6a09e667, 0xbb67ae85, 0x3c6ef372, 0xfa2a4622, 0x510e527f, 0x9b05688c, 0x1f83d9ab⟩ := by decide +kernel

/-- V-C2: the all-zero block from H0INIT. -/
theorem test_compress_zeros : compress h0init (Vector.replicate 64 0) =
    #v[0xda5698be, 0x17b9b469, 0x62335799, 0x779fbeca, 0x8ce5d491, 0xc0d26243, 0xbafef9ea, 0x1837a9d8] := by
  decide +kernel

theorem test_blockCount : blockCount 0 = 1 ∧ blockCount 55 = 1 ∧ blockCount 56 = 2 ∧ blockCount 63 = 2 ∧ blockCount 64 = 2
    ∧ blockCount 119 = 2 ∧ blockCount 120 = 3 ∧ blockCount 1000000 = 15626 := by decide

/-- Table 2.3, len 55 and 56: where the terminator and the length field stand. -/
theorem test_blocks_boundary :
    (blocks (List.replicate 55 0x61)).map (fun b => (b.toList.drop 54)) =
      [[0x61, 0x80, 0, 0, 0, 0, 0, 0, 0x01, 0xb8]]
    ∧ (blocks (List.replicate 56 0x61)).map (fun b => (b.toList.drop 54)) =
      [[0x61, 0x61, 0x80, 0, 0, 0, 0, 0, 0, 0], [0, 0, 0, 0, 0, 0, 0, 0, 0x01, 0xc0]] := by decide +kernel

/-! ## Commands (tables 2.4 and 2.5) -/

/-- K3: INIT clears the open message and keeps DATA. -/
theorem test_init : ends (exec .init k2) (fun t => t.bufcnt == 0 && t.mlen == 0 && t.h == h0init
    && t.data == 0x61626300 && t.finish.statusWord == 0) = true := by decide +kernel
/-- E9: INIT leaves ERROR. -/
theorem test_init_error : ends (exec .init failed) (fun t => t.fsm == .absorbing && t.errcode == .none) = true := by
  decide +kernel
/-- P3: ABSORB 1 takes the top byte of DATA only. -/
theorem test_absorb1 : ends (exec .absorb1 { State.reset with data := 0x61626300 }) (fun t =>
    t.bufcnt == 1 && t.mlen == 1 && blockByte t.buf 0 == 0x61 && blockByte t.buf 1 == 0) = true := by decide +kernel
/-- E10 and E11: the last length allowed, and one more. -/
theorem test_absorb1_bound : ends (exec .absorb1 (counts (2 ^ 61 - 2) 62)) (fun t =>
      t.finish.statusWord == 0x003f0000 && t.lenLo == 0xffffffff && t.lenHi == 0x1fffffff) = true
    ∧ ends (exec .absorb1 (counts (2 ^ 61 - 1) 63)) (fun t => t.finish.statusWord == 0x003f0304) = true := by
  decide +kernel
/-- K10: the second chunk. -/
theorem test_absorb2 : ends (exec .absorb2 { holding [0x61] with data := 0x62630000 }) (fun t =>
    t.mlen == 3 && t.buf == k2.buf && t.finish.statusWord == 0x00030000) = true := by decide +kernel
/-- K2. -/
theorem test_absorb3 : ends (exec .absorb3 { State.reset with data := 0x61626300 }) (fun t =>
    t.finish.statusWord == 0x00030000 && t.mlen == 3 && t.h == h0init && blockByte t.buf 2 == 0x63) = true := by
  decide +kernel
/-- K8: a block completed in the middle of one ABSORB. -/
theorem test_absorb4_fill : ends (exec .absorb4 k8) (fun t => t.finish.statusWord == 0x00020000 && t.mlen == 66
    && t.h == #v[0xcaa67f36, 0x32db7ceb, 0xbe05820a, 0x503f8631, 0x43a0dc31, 0x6bc2b030, 0x98186cef, 0xd9d8a9fa]
    && blockByte t.buf 0 == 0x64 && blockByte t.buf 1 == 0x65) = true := by decide +kernel
/-- E12 and E13. -/
theorem test_absorb4_bound :
    ends (exec .absorb4 (counts (2 ^ 61 - 4) 60)) (fun t => t.finish.statusWord == 0x003c0304) = true
    ∧ ends (exec .absorb4 (counts (2 ^ 61 - 5) 59)) (fun t => t.finish.statusWord == 0x003f0000) = true := by
  decide +kernel
/-- K4. -/
theorem test_final : ends (exec .final k2) (fun t => t.finish.statusWord == 0x00000002 && t.mlen == 3
    && t.h == #v[0xba7816bf, 0x8f01cfea, 0x414140de, 0x5dae2223, 0xb00361a3, 0x96177a9c, 0xb410ff61, 0xf20015ad])
    = true := by decide +kernel
/-- Table 2.3, len 56: two synthesized blocks. -/
theorem test_final_two_blocks : ends (exec .final (holding (List.replicate 56 0x61))) (fun t =>
    t.h == #v[0xb35439a4, 0xac6f0948, 0xb6d6f9e3, 0xc6af0f5f, 0x590ce20f, 0x1bde7090, 0xef797068, 0x6ec6738a])
    = true := by decide +kernel
/-- K5. -/
theorem test_finalD : ends (exec .finalD k2) (fun t => t.finish.statusWord == 0x0000000a && t.mlen == 3
    && t.h == #v[0x4f8b42c2, 0x2dd3729b, 0x519ba6f6, 0x8d2da7cc, 0x5b2d606d, 0x05daed5a, 0xd5128cc0, 0x3e6c6358])
    = true := by decide +kernel
/-- E5, with FINAL_D for FINAL: BAD_STATE keeps DOUBLE. -/
theorem test_finalD_badState : ends (exec .finalD { finished with double := true }) (fun t =>
    t.finish.statusWord == 0x0000020c) = true := by decide +kernel
/-- E2. -/
theorem test_illegal : ends (exec (.illegal 0) k2) (fun t => t.finish.statusWord == 0x00030104 && t.mlen == 3) = true := by
  decide +kernel
/-- E7: the first code is kept. -/
theorem test_illegal_error : ends (exec (.illegal 0x52) failed) (fun t => t.finish.statusWord == 0x00000204) = true := by
  decide +kernel
/-- E6: ILLEGAL beats BAD_STATE. -/
theorem test_wrCmd_priority : ends (exec (.wrCmd 0x52) finished) (fun t => t.finish.statusWord == 0x00000104) = true := by
  decide +kernel
/-- B10: held while BUSY. -/
theorem test_wrCmd_held : ends (exec (.wrCmd 0x12) (busyFor 3)) (fun t => t == busyFor 3) = true := by decide +kernel

/-! ## Register accesses (table 2.6) -/

/-- B3. -/
theorem test_rdCmd : ends (exec .rdCmd k2) (fun t => t.returned == [0]) = true := by decide +kernel
/-- B9 and B12. -/
theorem test_rdStatus : ends (exec .rdStatus { k2 with busy := true }) (fun t => t.returned == [0x00000001]) = true
    ∧ ends (exec .rdStatus k2) (fun t => t.returned == [0x00030000]) = true := by decide +kernel
/-- B6. -/
theorem test_wrStatus : ends (exec (.wrStatus 0xffffffff) k2) (fun t => t == k2) = true := by decide +kernel
/-- B1. -/
theorem test_rdData : ends (exec .rdData State.reset) (fun t => t.returned == [0]) = true := by decide +kernel
/-- B11 and K12: accepted while BUSY, and nothing but DATA changes. -/
theorem test_wrData : ends (exec (.wrData 0xdeadbeef) (busyFor 1)) (fun t => t == { busyFor 1 with data := 0xdeadbeef })
    = true := by decide +kernel
/-- P1. -/
theorem test_rdLenLo : ends (exec .rdLenLo k2) (fun t => t.returned == [3]) = true := by decide +kernel
/-- E10. -/
theorem test_rdLenHi : ends (exec .rdLenHi (counts (2 ^ 61 - 1) 63)) (fun t => t.returned == [0x1fffffff]) = true := by
  decide +kernel
/-- B7. -/
theorem test_wrLenLo : ends (exec (.wrLenLo 5) k2) (fun t => t == k2) = true := by decide +kernel
theorem test_wrLenHi : ends (exec (.wrLenHi 5) k2) (fun t => t == k2) = true := by decide +kernel
/-- B4, and the ignored writes of R165. -/
theorem test_reserved : ∀ i ∈ [Instr.rdReserved14, .rdReserved18, .rdReserved1C],
    ends (exec i k2) (fun t => t == { k2 with returned := [0] }) = true := by decide +kernel
theorem test_wrReserved : ∀ i ∈ [Instr.wrReserved14 5, .wrReserved18 5, .wrReserved1C 5],
    ends (exec i k2) (fun t => t == k2) = true := by decide +kernel
/-- K1. -/
theorem test_rdH : ends (exec (.rdH 0) State.reset) (fun t => t.returned == [0x6a09e667]) = true
    ∧ ends (exec (.rdH 7) State.reset) (fun t => t.returned == [0x5be0cd19]) = true := by decide +kernel
/-- B10: held while BUSY. -/
theorem test_rdH_held : ends (exec (.rdH 0) (busyFor 0)) (fun t => t == busyFor 0) = true := by decide +kernel
/-- B5. -/
theorem test_wrH : ends (exec (.wrH 0 0) State.reset) (fun t => t.h == h0init) = true := by decide +kernel
/-- B8. -/
theorem test_refused : exec (.refused .word 0x41) State.reset = .refused .accessNotAdmitted := rfl
/-- B13: reset, also while BUSY. -/
theorem test_reset : ends (step (State.doing { k2 with busy := true } [.reset])) (fun t => t == State.reset) = true := by
  decide +kernel
/-- B12: FINISH. -/
theorem test_finish : ends (step (State.doing (busyFor 0) [.access (.read 0x20)])) (fun t => t.busy == false
    && t.hostSteps == [.access (.read 0x20)]) = true := by decide +kernel
/-- R167: in a pause one engine step passes, and FINISH comes where it is due, so it can fall before a reset. -/
theorem test_pause : ends (step (State.doing (busyFor 1) [.pause, .reset])) (fun t => t.busy && t.busyLeft == 0
      && t.hostSteps == [.reset]) = true
    ∧ ends (step (State.doing (busyFor 0) [.pause, .reset])) (fun t => !t.busy && t.hostSteps == [.pause, .reset])
      = true := by decide +kernel

/-! ## Witnesses: each meets the hypotheses of the statement it is named after, clause by clause -/

/-- The host list of the witnesses: a held access, then the rest. -/
def heldRead : HostStep := .access (.read 0x20)

theorem witness_OpcodeMapsAreTheTables :
    (0x00000000#32).extractLsb' 0 4 = 0 ∧ 5 ≤ (0x00000005#32).extractLsb' 0 4 ∧ 5 ≤ (0x0000000f#32).extractLsb' 0 4
    ∧ (0x41#7).extractLsb' 0 2 ≠ 0 ∧ (0x7f#7).extractLsb' 0 2 ≠ 0 := by decide
theorem witness_LegalWordsAreExactlySeven : (0x41#7).extractLsb' 0 2 ≠ 0 ∧ (0x06#7).extractLsb' 0 2 ≠ 0 := by decide
theorem witness_DecodeOfEncodeIsTheInstruction :
    (Instr.illegal 0x52).wf = true ∧ (Instr.refused .half 0x04).wf = true ∧ (Instr.rdH 7).wf = true := by decide
theorem witness_EncodeOfDecodeIsTheWord :
    ((0x7c#7).getLsbD 6 = true ∧ admitted .word 0x7c = true) ∧ (0x3c#7).getLsbD 6 = false
    ∧ admitted .half 0x44 = false ∧ admitted .word 0x41 = false := by decide
theorem witness_OnlyUnsupportedAccessesAreRefused :
    exec (.refused .word 0x41) State.reset = .refused .accessNotAdmitted := rfl
theorem witness_StepPerformsTheNextAccess :
    (∃ rest, (State.doing State.reset [heldRead]).hostSteps = .access (.read 0x20) :: rest)
    ∧ (State.doing State.reset [heldRead]).busy = false ∧ (State.doing (busyFor 1) [heldRead]).busyLeft ≠ 0 :=
  ⟨⟨[], rfl⟩, rfl, Nat.one_ne_zero⟩
theorem witness_IssuedInstructionRuns :
    Instr.final.wf = true
    ∧ (State.doing State.reset [hostFinal]).hostSteps = .access Instr.final.toAccess :: []
    ∧ (State.doing State.reset [hostFinal]).busy = false := ⟨rfl, rfl, rfl⟩
theorem witness_TableWordRunsNext :
    decodeTableWord 32 0x42 = some .absorb4 ∧ decodeTableWord 8 0x3c = some (.rdH 7)
    ∧ decodeTableWord 40 0xff00000048 = some (.wrData 0xff000000) := by decide
theorem witness_FinishClearsBusyOnly :
    ((busyFor 0).busy = true ∧ (busyFor 0).busyLeft = 0 ∧ ∀ rest, (busyFor 0).hostSteps ≠ .reset :: rest)
    ∧ ends (step (busyFor 0)) (fun t => !t.busy) = true
    ∧ ends (step (State.doing (busyFor 5) [.reset])) (fun t => !t.busy) = true :=
  ⟨⟨rfl, rfl, nofun⟩, by decide +kernel, by decide +kernel⟩
theorem witness_ResetStepIsAlwaysEnabled :
    (State.doing (busyFor 5) [.reset, heldRead]).hostSteps = .reset :: [heldRead] := rfl
theorem witness_ResetEqualsInitThenFinishButData : failed.busy = false := rfl
theorem witness_WrCmdPerformsTheDecodedCommand :
    (busyFor 0).busy = true ∧ (k2.busy = false ∧ k2.fsm = .absorbing ∧ k2.bufcnt.toNat = k2.mlen.toNat % 64)
    ∧ (failed.busy = false ∧ failed.fsm = .error ∧ (0x3 : Word) ≠ 0x00000001)
    ∧ (finished.busy = false ∧ finished.fsm ≠ .error ∧ decodeCmd 0x52 = .illegal) := by decide +kernel
theorem witness_InitStartsANewMessage :
    (failed.fsm = .error ∧ ends (exec .init failed) (fun t => t.fsm != .error) = true)
    ∧ ((0x11#32).extractLsb' 0 4 = 1 ∧ (0x11 : Word) ≠ 0x00000001) ∧ k2.busy = false := by decide +kernel
theorem witness_AbsorbByteAppendsAndCompresses :
    (counts 0 0).bufcnt.toNat + 1 ≠ 64 ∧ (counts 62 62).bufcnt.toNat + 1 ≠ 64
    ∧ (counts 63 63).bufcnt.toNat + 1 = 64 := by decide +kernel
theorem witness_AbsorbAppendsItsBytes :
    (Instr.absorb4, 4) ∈ absorbRows ∧ (finished.busy = false ∧ finished.fsm = .done)
    ∧ ((counts (2 ^ 61 - 1) 63).fsm = .absorbing ∧ 2 ^ 61 - 1 < (counts (2 ^ 61 - 1) 63).mlen.toNat + 1)
    ∧ ((counts (2 ^ 61 - 5) 59).fsm = .absorbing ∧ (counts (2 ^ 61 - 5) 59).mlen.toNat + 4 ≤ 2 ^ 61 - 1)
    ∧ (counts 59 59).bufcnt.toNat + 4 < 64 ∧ 64 ≤ (counts 60 60).bufcnt.toNat + 4
    ∧ 64 ≤ (counts 63 63).bufcnt.toNat + 1 := by decide +kernel
theorem witness_AlignedWordIsAScheduleWord :
    (counts 60 60).busy = false ∧ (counts 60 60).fsm = .absorbing
    ∧ (counts 60 60).mlen.toNat + 4 ≤ Config.maxMsgBytes ∧ (counts 60 60).bufcnt.toNat % 4 = 0 := by decide +kernel
theorem witness_IllegalWordEntersError :
    finished.busy = false ∧ finished.fsm ≠ .error ∧ illegalWord 0x00000000 = true ∧ illegalWord 0x52 = true := by decide
theorem witness_ErrorEntryWritesCodeAndState :
    k2.busy = false ∧ failed.fsm = .error ∧ ends (exec .absorb1 failed) (fun t => t.fsm == .error) = true := by
  decide +kernel
theorem witness_CommandErrorsByPriority :
    ((State.doing k2 [.reset]).hostSteps = .reset :: [])
    ∧ (finished.busy = false ∧ finished.fsm = .done)
    ∧ (decodeCmd 0x52 = .illegal ∧ ends (exec (.wrCmd 0x52) finished) (fun _ => true) = true)
    ∧ (decodeCmd 0x3 ≠ .illegal ∧ ends (exec (.wrCmd 0x3) finished) (fun _ => true) = true)
    ∧ ((0x12 : Word) = (BitVec.ofNat 32 1 <<< 4) ||| 0x2
      ∧ ends (exec (.wrCmd 0x12) (counts (2 ^ 61 - 1) 63)) (fun _ => true) = true)
    ∧ ((0x42 : Word) = (BitVec.ofNat 32 4 <<< 4) ||| 0x2
      ∧ ends (exec (.wrCmd 0x42) (counts (2 ^ 61 - 5) 59)) (fun _ => true) = true)
    ∧ ((counts 0 0).busy = false ∧ (counts 0 0).fsm = .absorbing)
    ∧ ends (exec (.wrCmd 0x3) (counts 0 0)) (fun _ => true) = true
    ∧ ends (exec (.wrCmd 0x4) (counts 0 0)) (fun _ => true) = true
    ∧ ends (exec (.wrCmd 0x1) finished) (fun _ => true) = true := by decide +kernel
theorem witness_ErrorsArePrecise :
    (finished.fsm ≠ .error ∧ ends (exec .absorb1 finished) (fun t => t.fsm == .error) = true)
    ∧ (k2.fsm ≠ .error ∧ ends (exec (.wrCmd 0) k2) (fun t => t.fsm == .error) = true) := by decide +kernel
theorem witness_ErrorIgnoresEveryCommandButInit :
    Instr.finalD ∈ [Instr.absorb1, .absorb2, .absorb3, .absorb4, .final, .finalD] ∧ failed.busy = false
    ∧ failed.fsm = .error ∧ (0x11 : Word) ≠ 0x00000001 := by decide
theorem witness_OnlyInitOrResetLeavesError :
    failed.fsm = .error ∧ ends (step (State.doing failed [hostInit])) (fun t => t.fsm != .error) = true
    ∧ ends (step (State.doing failed [.reset])) (fun t => t.fsm != .error) = true := by decide +kernel
theorem witness_FsmMovesOnlyAsTheTableSays :
    ends (step (State.doing finished [.reset])) (fun t => t.fsm != finished.fsm) = true
    ∧ ends (step (State.doing finished [hostInit])) (fun t => t.fsm != finished.fsm) = true
    ∧ ends (step (State.doing State.reset [hostFinal])) (fun t => t.fsm != .absorbing) = true
    ∧ ends (step (State.doing finished [hostAbsorb 1])) (fun t => t.fsm != finished.fsm) = true := by decide +kernel
theorem witness_FinalizeCompressesTheSynthesizedBlocks :
    ∀ n ∈ [0, 55, 56, 63, 64], (holdingAs n).bufcnt.toNat = (List.replicate n (0x61 : Byte)).length % 64
      ∧ ∀ j, j < (holdingAs n).bufcnt.toNat → blockByte (holdingAs n).buf j =
          (List.replicate n (0x61 : Byte)).getD (64 * ((List.replicate n (0x61 : Byte)).length / 64) + j) 0 := by
  decide +kernel
theorem witness_FinalFinishesTheMessage :
    (finished.busy = false ∧ finished.fsm = .done)
    ∧ (k2.busy = false ∧ k2.fsm = .absorbing ∧ k2.bufcnt.toNat = k2.mlen.toNat % 64) := by decide +kernel
theorem witness_FinalDHashesTheDigestAgain :
    (finished.busy = false ∧ finished.fsm = .done)
    ∧ ((counts 56 56).busy = false ∧ (counts 56 56).fsm = .absorbing
      ∧ (counts 56 56).bufcnt.toNat = (counts 56 56).mlen.toNat % 64) := by decide +kernel
theorem witness_OnlyInconsistentFinalizingFaults :
    ((counts 1 0).busy = false ∧ (counts 1 0).fsm = .absorbing
      ∧ (counts 1 0).bufcnt.toNat ≠ (counts 1 0).mlen.toNat % 64)
    ∧ exec (.wrCmd 0x4) (counts 1 0) = .fault .blockIndex := ⟨by decide +kernel, rfl⟩
theorem witness_DataReadsBackWhatWasWritten : ends (exec (.wrData 0xdeadbeef) (busyFor 1)) (fun _ => true) = true
    ∧ ends (exec .init k2) (fun _ => true) = true := by decide +kernel
theorem witness_StatusReadReturnsTheFields : (busyFor 0).busy = true ∧ finished.busy = false := ⟨rfl, rfl⟩
theorem witness_LengthReadsReturnMlen :
    (busyFor 0).busy = true ∧ (counts (2 ^ 61 - 1) 63).busy = false
    ∧ (counts (2 ^ 61 - 1) 63).mlen.toNat ≤ 2 ^ 61 - 1
    ∧ (Instr.rdStatus.isCommand = false ∧ ends (exec .rdStatus k2) (fun _ => true) = true) := by decide +kernel
theorem witness_HashWordReadReturnsTheWord : (busyFor 0).busy = true ∧ k2.busy = false := ⟨rfl, rfl⟩
theorem witness_CmdAndReservedOffsetsReadZero :
    Instr.rdReserved1C ∈ [Instr.rdCmd, .rdReserved14, .rdReserved18, .rdReserved1C] := by decide
theorem witness_IgnoredWritesChangeNothing : Instr.wrH 7 5 ∈ [Instr.wrStatus 5, .wrLenLo 5, .wrLenHi 5, .wrReserved14 5,
    .wrReserved18 5, .wrReserved1C 5, .wrH 7 5] := by decide
theorem witness_OnlyTheListedAccessesAreHeld :
    (busyFor 0).busy = true ∧ (Instr.rdH 7).isHeld = true
    ∧ (Instr.rdStatus.isHeld = false ∧ ∀ width op7, Instr.rdStatus ≠ .refused width op7)
    ∧ (State.doing (busyFor 0) [heldRead]).hostSteps = .access (.read 0x20) :: []
    ∧ (decodeBus (.read 0x20)).isHeld = true
    ∧ ends (step (State.doing (busyFor 0) [heldRead])) (fun _ => true) = true :=
  ⟨rfl, rfl, ⟨rfl, nofun⟩, rfl, by decide +kernel, by decide +kernel⟩
theorem witness_HeldAccessIsPerformedAfterFinish :
    (State.doing (busyFor 2) [heldRead]).hostSteps = .access (.read 0x20) :: []
    ∧ (decodeBus (.read 0x20)).isHeld = true ∧ (State.doing (busyFor 2) [heldRead]).busy = true
    ∧ 2 ≤ (State.doing (busyFor 2) [heldRead]).busyLeft := by decide +kernel
theorem witness_WaitLoopEndsWithBusyClear :
    (State.doing (busyFor 2) [.wait, heldRead]).hostSteps = .wait :: [heldRead] := rfl
theorem witness_ResultsDoNotDependOnTBusy :
    ({ State.doing (busyFor 0) [.pause, heldRead] with draw := 7, delaySource := 3 } =
      { State.doing (busyFor 2) [heldRead] with
        busyLeft := 0, draw := 7, delaySource := 3, hostSteps := [.pause, heldRead] })
    ∧ (State.doing (busyFor 0) [.pause, heldRead]).activeSteps = (State.doing (busyFor 2) [heldRead]).activeSteps
    ∧ endsRun (core.run 4 (State.doing (busyFor 2) [heldRead])) (fun t => !t.busy && t.hostSteps.isEmpty) = true
    ∧ (∀ x ∈ (State.doing (busyFor 2) [heldRead]).hostSteps, x.polls = false) :=
  ⟨rfl, rfl, by decide +kernel, by decide +kernel⟩
theorem witness_AbsorbExtendsTheMessageHeld :
    State.reset.Holds [] ∧ (Instr.absorb4, 4) ∈ absorbRows ∧ State.reset.busy = false
    ∧ ([] : Message).length + 4 ≤ Config.maxMsgBytes :=
  ⟨⟨rfl, by decide +kernel, rfl, rfl, by decide +kernel, nofun⟩, by decide, rfl, by decide +kernel⟩
theorem witness_FinalGivesSha256OfTheMessage : k2.Holds [0x61, 0x62, 0x63] ∧ k2.busy = false :=
  ⟨⟨rfl, by decide +kernel, by decide +kernel, by decide +kernel, by decide +kernel, by decide +kernel⟩, rfl⟩
theorem witness_FinalDGivesSha256dOfTheMessage :
    (holding (List.replicate 64 0x61)).Holds (List.replicate 64 0x61) ∧ (holding (List.replicate 64 0x61)).busy = false :=
  ⟨⟨by decide +kernel, by decide +kernel, by decide +kernel, by decide +kernel, by decide +kernel, by decide +kernel⟩,
    by decide +kernel⟩
theorem witness_StreamingEndsWithTheDigest :
    (∀ c ∈ [((0x61000000 : Word), 1), (0x62636465, 4)], 1 ≤ c.2 ∧ c.2 ≤ 4)
    ∧ (chunkBytes [(0x61000000, 1), (0x62636465, 4)]).length ≤ Config.maxMsgBytes
    ∧ (State.doing failed (hostStream [(0x61000000, 1), (0x62636465, 4)] hostFinal)).hostSteps =
        hostStream [(0x61000000, 1), (0x62636465, 4)] hostFinal
    ∧ (State.doing (busyFor 3) (hostStream [] hostFinalD)).hostSteps = hostStream [] hostFinalD :=
  ⟨by decide, by decide +kernel, rfl, rfl⟩
theorem witness_HashChunksCarryTheMessage : ((0x61626300 : Word), 3) ∈ hashChunks [0x61, 0x62, 0x63] := by decide
theorem witness_PrimitivesAreTheFormulas : (0 < 1 ∧ 1 < 32) ∧ (0 < 31 ∧ 31 < 32) := by decide
theorem witness_ScheduleIsLoadedAndExpanded : (15 < 16) ∧ (16 ≤ 16 ∧ 16 < 64) ∧ (16 ≤ 63 ∧ 63 < 64) := by decide
theorem witness_StepKeepsTheInvariants :
    State.reset.Inv ∧ ends (step State.reset) (fun _ => true) = true :=
  ⟨⟨by decide +kernel, fun _ => rfl, nofun, ⟨nofun, fun _ => rfl⟩, nofun⟩, by decide +kernel⟩
theorem witness_RunsFromTheInvariantsAreSafe :
    (State.doing finished [heldRead, .wait, .reset]).Inv ∧ (State.doing finished [heldRead, .wait, .reset]).Admitted :=
  ⟨⟨by decide +kernel, nofun, fun _ => rfl, ⟨nofun, fun _ => rfl⟩, nofun⟩, by
    intro x hx
    simp only [State.doing, List.mem_cons, List.not_mem_nil, or_false] at hx
    rcases hx with rfl | rfl | rfl <;> rfl⟩
theorem witness_HashStateChangesOnlyByCommands :
    ends (step (State.doing { finished with h := Vector.replicate 8 0 } [hostInit]))
        (fun t => t.h != Vector.replicate 8 0) = true
    ∧ ends (step (State.doing k8 [hostAbsorb 4])) (fun t => t.h != k8.h) = true
    ∧ ends (step (State.doing k2 [hostFinal])) (fun t => t.h != k2.h) = true
    ∧ ends (step (State.doing k2 [hostFinalD])) (fun t => t.h != k2.h) = true
    ∧ ends (step (State.doing { k2 with h := Vector.replicate 8 0 } [.reset])) (fun t => t.h != Vector.replicate 8 0)
      = true := by decide +kernel
theorem witness_InstancesAreIndependent :
    ((Platform.stepAt [busyFor 0, State.reset] 0).any fun r =>
      match r with
      | .next _ => true
      | .fault _ => false
      | .refused _ => false) = true := by decide +kernel
theorem witness_InstancesDrawTheirOwnDelays :
    1 < 2 ∧ (Platform.reset 2).Apart
    ∧ ((Platform.stepAt (Platform.reset 2) 1).any fun r =>
      match r with
      | .next _ => true
      | .fault _ => false
      | .refused _ => false) = true
    ∧ (k2.busy = false ∧ ends (exec .final k2) (fun t => t.busy) = true) := by
  refine ⟨by decide, ?_, by decide +kernel, rfl, by decide +kernel⟩
  exact (by decide : ([0, 1] : List Nat).Nodup)
theorem witness_WindowAddressesAreOffsets :
    (63 < 64 ∧ Config.shaBase 0 + 63 = Config.shaBase 0 + 63) ∧ Config.shaBase 0 + 64 ≤ Config.shaBase 0 + 64 :=
  ⟨⟨by decide, rfl⟩, Nat.le_refl _⟩

end Sys2Proof.Tests
end

section
/-! PROOFS. The state family (spec/10_state.md): the reset values, the invariants of R37 and the runs they make safe, and
what may change FSM and H. First what each rule of a command does to these items, then the statements. -/

namespace Sys2Proof

open Machine

/-! ## Decoding -/

/-- The word of a legal command (R74). -/
def Command.word : Command → Option Word
  | .init => some 0x1
  | .absorb1 => some 0x12
  | .absorb2 => some 0x22
  | .absorb3 => some 0x32
  | .absorb4 => some 0x42
  | .final => some 0x3
  | .finalD => some 0x4
  | .illegal => none

/-- A legal command is what its word alone decodes to. -/
theorem decodeCmd_eq_iff {d : Command} {w : Word} (hw : d.word = some w) (c : Word) : decodeCmd c = d ↔ c = w := by
  constructor
  · intro h
    rw [decodeCmd_eq] at h
    split_ifs at h <;> subst h <;> cases hw <;> assumption
  · rintro rfl
    cases d <;> cases hw <;> rfl

/-- A word that decodes to an ABSORB is one of four. -/
theorem mem_absorbWords_of_count {c : Word} {n : Nat} (h : (decodeCmd c).count = some n) :
    c ∈ [0x12#32, 0x22#32, 0x32#32, 0x42#32] := by
  cases hd : decodeCmd c <;> rw [hd] at h
  case absorb1 => simp [(decodeCmd_eq_iff rfl c).mp hd]
  case absorb2 => simp [(decodeCmd_eq_iff rfl c).mp hd]
  case absorb3 => simp [(decodeCmd_eq_iff rfl c).mp hd]
  case absorb4 => simp [(decodeCmd_eq_iff rfl c).mp hd]
  all_goals cases h

theorem Command.count_le {d : Command} {n : Nat} (h : d.count = some n) : n ≤ 4 := by
  cases d <;> cases h <;> decide

/-- An admitted access is on a row of the bus map (R52). -/
theorem decodeBus_of_admitted {a : Access} (ha : admitted a.width a.op7 = true) (w : AccessWidth) (o : BitVec 7) :
    decodeBus a ≠ .refused w o := by
  obtain ⟨width, op7, v⟩ := a
  obtain ⟨rfl, halign⟩ : width = .word ∧ op7.extractLsb' 0 2 = 0 := by simpa [admitted] using ha
  refine aligned_op7_induction (P := fun k => decodeOp7 k v ≠ .refused w o) ?rows ?readH ?writeH op7 halign
  case rows =>
    intro r hr
    fin_cases hr <;> exact nofun
  case readH =>
    intro i
    rw [decodeOp7_readH]
    exact nofun
  case writeH =>
    intro i
    rw [decodeOp7_writeH]
    exact nofun

namespace Machine

variable {s t : State}

/-! ## FSM and H under the rule of a command -/

/-- What the rule of a command does to FSM: INIT opens it, FINAL and FINAL_D close it, an error of any other command
names its code, and otherwise it stays. -/
theorem RuleEnds.fsm_cases {d : Command} (h : RuleEnds d s t) :
    (d = .init ∧ t.fsm = .absorbing)
    ∨ ((d = .final ∨ d = .finalD) ∧ s.fsm = .absorbing ∧ t.fsm = .done)
    ∨ (d ≠ .init ∧ t.fsm = .error ∧ t.errcode ≠ .none)
    ∨ t.fsm = s.fsm := by
  cases h with
  | init hd ht => exact .inl ⟨hd, by simp [ht]⟩
  | illegal hd ht => exact .inr (.inr (.inl (by simp [hd, ht])))
  | badState hi _ _ ht => exact .inr (.inr (.inl (by simp [hi, ht])))
  | overflow n hd _ _ ht =>
    have hi : d ≠ .init := by rintro rfl; cases hd
    exact .inr (.inr (.inl (by simp [hi, ht])))
  | absorbed n _ _ _ ht => exact .inr (.inr (.inr (by simp [ht])))
  | final hd hf _ ht => exact .inr (.inl ⟨.inl hd, hf, by simp [ht]⟩)
  | finalD hd hf _ ht => exact .inr (.inl ⟨.inr hd, hf, by simp [ht]⟩)

/-- At most a blockful of bytes fills the buffer at most once. -/
theorem absorbBytes_h_cases (s : State) {xs : List Byte} (hlen : xs.length ≤ 64) :
    (s.absorbBytes xs).h = s.h ∨ ∃ blk, (s.absorbBytes xs).h = compress s.h blk := by
  rcases Nat.lt_or_ge (s.bufcnt.toNat + xs.length) 64 with hlt | hge
  · exact .inl (absorbBytes_append xs s hlt).1
  · obtain ⟨full, _, hh, _⟩ := absorbBytes_fill xs s hge hlen
    exact .inr ⟨full, hh⟩

/-- Finalize compresses one or two whole blocks. -/
theorem finalize_h_eq_compressAll (s : State) (len : Nat) :
    ∃ bs : List Block, (bs.length = 1 ∨ bs.length = 2) ∧ (s.finalize len).h = compressAll s.h bs := by
  cases htwo : s.needsTwoBlocks
  · exact ⟨[s.lastBuf len], .inl rfl, by simp [State.beforeLast, htwo]⟩
  · exact ⟨[s.paddedBuf, s.lastBuf len], .inr rfl, by simp [State.beforeLast, htwo]⟩

/-- The second pass of FINAL_D is one block on the initial hash state: the digest leaves room for the padding. -/
theorem finalDState_h_eq_compress (s : State) : ∃ blk, s.finalDState.h = compress h0init blk := by
  have hone : (s.finalize s.mlen.toNat).loadDigest.needsTwoBlocks = false := by simp [State.needsTwoBlocks]
  exact ⟨_, by rw [State.finalDState_h, State.finalize_h, State.beforeLast, hone]; rfl⟩

/-- What the rule of a command does to H. -/
theorem RuleEnds.h_cases {d : Command} (h : RuleEnds d s t) :
    t.h = s.h
    ∨ (d = .init ∧ t.h = h0init)
    ∨ ((∃ n, d.count = some n) ∧ ∃ blk, t.h = compress s.h blk)
    ∨ (d = .final ∧ ∃ bs : List Block, (bs.length = 1 ∨ bs.length = 2) ∧ t.h = compressAll s.h bs)
    ∨ (d = .finalD ∧ ∃ blk, t.h = compress h0init blk) := by
  cases h with
  | init hd ht => exact .inr (.inl ⟨hd, by simp [ht]⟩)
  | illegal _ ht => exact .inl (by simp [ht])
  | badState _ _ _ ht => exact .inl (by simp [ht])
  | overflow _ _ _ _ ht => exact .inl (by simp [ht])
  | absorbed n hd _ _ ht =>
    have hn : (absorbOperand s.data n).length ≤ 64 := by have := Command.count_le hd; simp; omega
    rw [ht, State.absorbData_h]
    exact (absorbBytes_h_cases s hn).imp_right fun hblk => .inr (.inl ⟨⟨n, hd⟩, hblk⟩)
  | final hd _ _ ht => rw [ht]; exact .inr (.inr (.inr (.inl ⟨hd, finalize_h_eq_compressAll s _⟩)))
  | finalD hd _ _ ht => rw [ht]; exact .inr (.inr (.inr (.inr ⟨hd, finalDState_h_eq_compress s⟩)))

/-! ## The invariants of R37, kept by each operation -/

/-- An open message with no byte in it meets the invariants. -/
theorem State.Inv.of_fresh (hf : s.fsm = .absorbing) (hc : s.bufcnt = 0) (hm : s.mlen = 0) (hd : s.double = false)
    (he : s.errcode = .none) : s.Inv where
  mlen_le := by simp [hm]
  bufcnt_open := by simp [hc, hm]
  bufcnt_done := by simp [hf]
  errcode_iff := by simp [he, hf]
  double_imp := by simp [hd]

/-- The invariants speak only of items that commands write. -/
theorem SameEngine.inv (h : SameEngine s t) (hs : s.Inv) : t.Inv where
  mlen_le := by rw [h.mlen]; exact hs.mlen_le
  bufcnt_open := by rw [h.fsm, h.bufcnt, h.mlen]; exact hs.bufcnt_open
  bufcnt_done := by rw [h.fsm, h.bufcnt]; exact hs.bufcnt_done
  errcode_iff := by rw [h.errcode, h.fsm]; exact hs.errcode_iff
  double_imp := by rw [h.double, h.fsm]; exact hs.double_imp

theorem State.Inv.tick (hs : s.Inv) : s.tick.Inv := (SameEngine.refl s.tick).of_tick.inv hs

/-- A command begins from the invariants of the state it is sent in. -/
theorem State.Inv.complete_setBusy (hs : s.Inv) : s.complete.setBusy.Inv :=
  SameEngine.inv (s := s) ⟨rfl, rfl, rfl, rfl, rfl, rfl, rfl⟩ hs

theorem State.Inv.raiseError (hs : s.Inv) {code : ErrCode} (hc : code ≠ .none) : (s.raiseError code).Inv where
  mlen_le := hs.mlen_le
  bufcnt_open := by simp
  bufcnt_done := by simp
  errcode_iff := by simp [hc]
  double_imp := by simp

/-- Within the length limit MLEN counts without wrapping round (R37 (a)). -/
theorem absorbData_mlen_toNat {n : Nat} (hl : s.mlen.toNat + n ≤ Config.maxMsgBytes) :
    (s.absorbData n).mlen.toNat = s.mlen.toNat + n := by
  have hmax : s.mlen.toNat + n ≤ 2 ^ 61 - 1 := hl
  rw [State.absorbData_mlen, BitVec.toNat_add, BitVec.toNat_ofNat]
  omega

/-- ABSORB moves BUFCNT and MLEN by the same number. -/
theorem State.Inv.absorbData (hs : s.Inv) {n : Nat} (hf : s.fsm = .absorbing)
    (hl : s.mlen.toNat + n ≤ Config.maxMsgBytes) : (s.absorbData n).Inv where
  mlen_le := by rw [absorbData_mlen_toNat hl]; exact hl
  bufcnt_open := by
    intro _
    rw [absorbData_mlen_toNat hl, State.absorbData_bufcnt, absorbBytes_bufcnt, absorbOperand_length,
      hs.bufcnt_open hf, Nat.mod_add_mod]
  bufcnt_done := by simp [hf]
  errcode_iff := by simpa using hs.errcode_iff
  double_imp := by simpa using hs.double_imp

/-- A message that has ended, with BUFCNT 0 and MLEN and ERRCODE as they were while it was open, meets the
invariants. -/
theorem State.Inv.of_done (hs : s.Inv) (hf : s.fsm = .absorbing) (htf : t.fsm = .done) (hc : t.bufcnt = 0)
    (hm : t.mlen = s.mlen) (he : t.errcode = s.errcode) : t.Inv where
  mlen_le := by rw [hm]; exact hs.mlen_le
  bufcnt_open := by simp [htf]
  bufcnt_done := by simp [hc]
  errcode_iff := by simpa [he, htf, hf] using hs.errcode_iff
  double_imp := by simp [htf]

/-- Every rule of a command keeps the invariants. -/
theorem RuleEnds.inv {d : Command} (h : RuleEnds d s t) (hs : s.Inv) : t.Inv := by
  cases h <;> subst t
  case init => exact .of_fresh rfl rfl rfl rfl rfl
  case illegal => exact hs.raiseError (by decide)
  case badState => exact hs.raiseError (by decide)
  case overflow => exact hs.raiseError (by decide)
  case absorbed n _ hf hl => exact hs.absorbData hf hl
  case final hf _ => exact hs.of_done hf rfl rfl rfl rfl
  case finalD hf _ => exact hs.of_done hf rfl rfl rfl rfl

/-! ## Which steps answer a next state -/

/-- While a message is open, R37 (b) is the precondition Finalize checks (R156, log 8). -/
theorem State.Inv.paddingReady (hs : s.Inv) (hf : s.fsm = .absorbing) : s.paddingReady = true := by
  simpa [State.paddingReady] using hs.bufcnt_open hf

theorem absorb_next (n : Nat) (s : State) : ∃ t, absorb n s = .next t := by
  rcases absorb_cases n s with ⟨_, e⟩ | ⟨_, _, e⟩ | ⟨_, _, e⟩ <;> exact ⟨_, e⟩

/-- The consistency fault of Finalize is out of reach under the invariants. -/
theorem finalizeWith_next (effect : State → State) (hs : s.Inv) : ∃ t, finalizeWith effect s = .next t := by
  rcases finalizeWith_cases effect s with ⟨_, e⟩ | ⟨_, _, e⟩ | ⟨hf, hp, _⟩
  · exact ⟨_, e⟩
  · exact ⟨_, e⟩
  · rw [hs.paddingReady hf] at hp; cases hp

theorem rule_next (d : Command) (hs : s.Inv) : ∃ t, d.rule s = .next t := by
  cases d
  case init => exact ⟨_, rfl⟩
  case illegal => exact ⟨_, rfl⟩
  case final => exact finalizeWith_next _ hs
  case finalD => exact finalizeWith_next _ hs
  all_goals exact absorb_next _ s

theorem readHeld_next (v : Word) (s : State) : ∃ t, readHeld v s = .next t := by
  cases hb : s.busy
  · exact ⟨_, readHeld_of_idle v hb⟩
  · exact ⟨_, readHeld_of_busy v hb⟩

/-- Every access that is no command answers a next state, unless it is refused. -/
theorem exec_access_next {i : Instr} (hi : i.command = none) (hr : ∀ w o, i ≠ .refused w o) (s : State) :
    ∃ t, exec i s = .next t := by
  cases i <;> cases hi
  case rdLenLo.refl => exact readHeld_next _ s
  case rdLenHi.refl => exact readHeld_next _ s
  case rdH.refl k => exact readHeld_next _ s
  case refused.refl w o => exact absurd rfl (hr w o)
  all_goals exact ⟨_, rfl⟩

/-- Under the invariants every instruction answers a next state, unless it is refused. -/
theorem exec_next {i : Instr} (hs : s.Inv) (hr : ∀ w o, i ≠ .refused w o) : ∃ t, exec i s = .next t := by
  cases hi : i.command with
  | none => exact exec_access_next hi hr s
  | some d =>
    rw [exec_of_command hi]
    rcases performCommand_cases (isInit := d.isInit) (rule := d.rule) (s := s) rfl with
      ⟨_, e⟩ | ⟨_, _, _, e⟩ | ⟨_, _, e⟩
    · exact ⟨_, e⟩
    · exact ⟨_, e⟩
    · rw [e]; exact rule_next d hs.complete_setBusy

/-- Under the invariants a step with an admitted host answers a next state. -/
theorem step_next (hs : s.Inv) (ha : s.Admitted) : ∃ t, step s = .next t := by
  rcases step_cases (s := s) rfl with ⟨_, _, e⟩ | ⟨_, _, e⟩ | ⟨a, rest, hsteps, _, e⟩ | ⟨_, _, _, e⟩ | ⟨_, _, _, e⟩
    | ⟨_, _, e⟩
  case inr.inr.inl =>
    have hadm : admitted a.width a.op7 = true := ha (.access a) (by simp [hsteps])
    rw [e]
    exact exec_next hs.tick (decodeBus_of_admitted hadm)
  all_goals exact ⟨_, e⟩

/-! ## What the host has left to do -/

theorem RuleEnds.hostSteps {d : Command} (h : RuleEnds d s t) : t.hostSteps = s.hostSteps := by
  cases h <;> subst t <;> simp

theorem exec_hostSteps {i : Instr} (h : exec i s = .next t) :
    t.hostSteps = s.hostSteps ∨ t.hostSteps = s.hostSteps.tail := by
  cases hi : i.command with
  | none => rcases exec_access_cases hi h with ⟨_, rfl⟩ | rfl | ⟨_, rfl⟩ | ⟨_, rfl⟩ <;> simp
  | some d =>
    rcases exec_command_cases hi h with ⟨_, rfl⟩ | ⟨_, _, _, rfl⟩ | ⟨_, _, hr⟩
    · exact .inl rfl
    · exact .inr rfl
    · exact .inr hr.hostSteps

/-- A step leaves the host's list as it is, or takes its first entry off. -/
theorem step_hostSteps (h : step s = .next t) : t.hostSteps = s.hostSteps ∨ t.hostSteps = s.hostSteps.tail := by
  rcases step_cases h with ⟨_, _, e⟩ | ⟨_, _, e⟩ | ⟨_, _, _, _, e⟩ | ⟨_, _, _, e⟩ | ⟨_, _, _, e⟩ | ⟨_, _, e⟩
  · cases e; simp
  · cases e; simp
  · simpa using exec_hostSteps e.symm
  · rw [performPoll_eq] at e
    cases e
    unfold State.afterPoll
    split <;> simp
  · cases e; simp
  · cases e; simp

/-- No step gives the host an access it did not have. -/
theorem State.Admitted.step (ha : s.Admitted) (h : step s = .next t) : t.Admitted := by
  intro x hx
  rcases step_hostSteps h with e | e <;> rw [e] at hx
  · exact ha x hx
  · exact ha x (List.mem_of_mem_tail hx)

/-! ## The statements -/

/-- Settles O52: a reset opens a fresh message, a performed command keeps the invariants by its rule, and any other step
leaves the items they speak of alone. -/
theorem stepKeepsTheInvariants : Obligations.StepKeepsTheInvariants := by
  intro s t hs h
  rcases step_engine_cases h with ⟨_, _, rfl⟩ | hsame | ⟨_, _, _, _, _, _, _, hrule⟩
  · exact .of_fresh rfl rfl rfl rfl rfl
  · exact hsame.inv hs
  · exact hrule.inv hs.complete_setBusy

/-- Settles O53, by induction on the number of steps: the invariants and an admitted host are kept by every step, and
under both a step has a next state. -/
theorem runsFromTheInvariantsAreSafe : Obligations.RunsFromTheInvariantsAreSafe := by
  intro s hs ha k
  have keeps : ∀ u : State, u.Inv ∧ u.Admitted → ∃ t, step u = .next t ∧ t.Inv ∧ t.Admitted := by
    rintro u ⟨hu, hua⟩
    obtain ⟨t, ht⟩ := step_next hu hua
    exact ⟨t, ht, stepKeepsTheInvariants u t hu ht, hua.step ht⟩
  obtain ⟨t, ht, _⟩ := run_induction keeps ⟨hs, ha⟩ k
  exact ⟨t, ht⟩

/-- Settles O24: FSM moves by a reset or by the rule of a command that is performed. -/
theorem fsmMovesOnlyAsTheTableSays : Obligations.FsmMovesOnlyAsTheTableSays := by
  intro s t h hne
  rcases step_engine_cases h with ⟨rest, hs, rfl⟩ | hsame | ⟨a, c, rest, hs, hc, hb, hlegal, hrule⟩
  · exact .inl ⟨rest, hs, rfl⟩
  · exact absurd hsame.fsm hne
  · refine .inr ⟨a, c, rest, hs, hc, hb, ?_⟩
    rcases hrule.fsm_cases with ⟨hd, ht⟩ | ⟨hd, hf, ht⟩ | ⟨hd, ht, he⟩ | ht
    · exact .inl ⟨(decodeCmd_eq_iff rfl c).mp hd, ht⟩
    · exact .inr (.inl ⟨hd.imp (decodeCmd_eq_iff rfl c).mp (decodeCmd_eq_iff rfl c).mp, hf, ht⟩)
    · exact .inr (.inr ⟨hlegal.resolve_right hd, ht, he⟩)
    · exact absurd ht hne

/-- Settles O54: H moves by a reset or by the rule of a command that is performed. -/
theorem hashStateChangesOnlyByCommands : Obligations.HashStateChangesOnlyByCommands := by
  intro s t h hne
  rcases step_engine_cases h with ⟨rest, hs, rfl⟩ | hsame | ⟨a, c, rest, hs, hc, hb, _, hrule⟩
  · exact .inl ⟨rest, hs, rfl⟩
  · exact absurd hsame.h hne
  · refine .inr ⟨a, c, rest, hs, hc, hb, ?_⟩
    rcases hrule.h_cases with ht | ⟨hd, ht⟩ | ⟨⟨n, hn⟩, hblk⟩ | ⟨hd, hbs⟩ | ⟨hd, hblk⟩
    · exact absurd ht hne
    · exact .inl ⟨(decodeCmd_eq_iff rfl c).mp hd, ht⟩
    · exact .inr (.inl ⟨mem_absorbWords_of_count hn, hblk⟩)
    · exact .inr (.inr (.inl ⟨(decodeCmd_eq_iff rfl c).mp hd, hbs⟩))
    · exact .inr (.inr (.inr ⟨(decodeCmd_eq_iff rfl c).mp hd, hblk⟩))

/-- Settles O11: R36's table, each value by evaluation. -/
theorem resetValuesAreTheTable : Obligations.ResetValuesAreTheTable :=
  ⟨fun _ => ⟨rfl, rfl⟩, rfl, rfl, rfl, rfl, rfl, rfl, fun j _ => blockByte_zeros j, rfl, rfl, rfl, rfl, rfl⟩

/-- Settles O51: reset opens a message with no byte in it. -/
theorem resetMeetsTheInvariants : Obligations.ResetMeetsTheInvariants :=
  State.Inv.of_fresh rfl rfl rfl rfl rfl

end Machine

end Sys2Proof
end

section
/-! PROOFS. The memory family (spec/20_memory.md): which accesses the window supports, that a step performs the host's
next access, the platform addresses of a window, and where ABSORB 4 puts DATA. -/

namespace Sys2Proof

open Machine

/-! ## Which accesses decode to (refused) -/

/-- The row (refused) is reached exactly from outside R52. -/
theorem decodeBus_eq_refused_iff (a : Access) :
    decodeBus a = .refused a.width a.op7 ↔ admitted a.width a.op7 = false := by
  constructor
  · intro h
    by_contra hadm
    exact decodeBus_of_admitted (by simpa using hadm) _ _ h
  · intro hadm
    obtain ⟨width, op7, v⟩ := a
    cases width
    case word => exact decodeOp7_of_misaligned (by simpa [admitted] using hadm) v
    case half => rfl
    case byte => rfl

theorem admitted_eq_false_iff (width : AccessWidth) (op7 : BitVec 7) :
    admitted width op7 = false ↔ width ≠ .word ∨ op7.extractLsb' 0 2 ≠ 0 := by
  simp [admitted, or_iff_not_imp_left]

/-! ## The encoder against the decoder -/

/-- The two fields of `op7` (R71). -/
theorem op7Of_fields : ∀ (write : Bool) (off : BitVec 6),
    (op7Of write off).getLsbD 6 = write ∧ (op7Of write off).extractLsb' 0 6 = off := by decide

theorem Command.word_eq_none_iff (d : Command) : d.word = none ↔ d = .illegal := by
  cases d <;> simp [Command.word]

/-- The word of a legal command meets no clause of R75. -/
theorem Command.illegalWord_word {d : Command} {w : Word} (hw : d.word = some w) : illegalWord w = false := by
  cases d <;> cases hw <;> decide

/-- A word that R75 calls illegal is no row of the CMD map. -/
theorem decodeCmd_of_illegalWord {c : Word} (hc : illegalWord c = true) : decodeCmd c = .illegal := by
  cases hw : (decodeCmd c).word with
  | none => exact (Command.word_eq_none_iff _).mp hw
  | some w =>
    obtain rfl : c = w := (decodeCmd_eq_iff hw c).mp rfl
    exact absurd hc (by simp [Command.illegalWord_word hw])

/-- Decoding the encoding of a well-formed instruction gives it back (R70-R75). -/
theorem decode_encode_of_wf {i : Instr} (hi : i.wf = true) : decode (encode i) = i := by
  cases i
  case illegal c => simp [encode, decode, decodeCmdInstr, decodeCmd_of_illegalWord (show illegalWord c = true from hi)]
  case rdH k => exact decodeOp7_readH k 0
  case wrH k v => exact decodeOp7_writeH k v
  case refused width op7 =>
    exact (decodeBus_eq_refused_iff ⟨width, op7, 0⟩).mpr (by simpa [Instr.wf] using hi)
  all_goals rfl

/-- A command word is the command it decodes to. -/
theorem decodeCmdInstr_command (c : Word) : (decodeCmdInstr c).command = some (decodeCmd c) := by
  unfold decodeCmdInstr
  cases decodeCmd c <;> rfl

namespace Machine

variable {s : State}

/-! ## An issued instruction is the one that runs -/

/-- A command word runs as the write of it to CMD (R77). -/
theorem exec_wrCmd (c : Word) (s : State) : exec (.wrCmd c) s = exec (decodeCmdInstr c) s := by
  rw [exec_of_command rfl, exec_of_command (decodeCmdInstr_command c)]

/-- The access that carries an encoding runs what the encoding stands for. -/
theorem exec_decode_toAccess (e : Encoded) (s : State) : exec (decode (.bus e.toAccess)) s = exec (decode e) s := by
  cases e with
  | bus a => rfl
  | cmd c => exact exec_wrCmd c s

/-! ## What is refused -/

/-- No rule of a command refuses. -/
theorem rule_ne_refused (d : Command) (s : State) (r : Refusal) : d.rule s ≠ .refused r := by
  have absorbs : ∀ n, absorb n s ≠ .refused r := by
    intro n
    obtain ⟨t, e⟩ := absorb_next n s
    rw [e]; exact nofun
  have finalizes : ∀ effect, finalizeWith effect s ≠ .refused r := by
    intro effect
    rcases finalizeWith_cases effect s with ⟨_, e⟩ | ⟨_, _, e⟩ | ⟨_, _, e⟩ <;> rw [e] <;> exact nofun
  cases d
  case init => exact nofun
  case illegal => exact nofun
  case final => exact finalizes _
  case finalD => exact finalizes _
  all_goals exact absorbs _

/-- No command is refused: it is held, ignored in ERROR, or ends by its rule. -/
theorem exec_command_ne_refused {i : Instr} {d : Command} (hi : i.command = some d) (s : State) (r : Refusal) :
    exec i s ≠ .refused r := by
  rw [exec_of_command hi]
  rcases performCommand_cases (isInit := d.isInit) (rule := d.rule) (s := s) rfl with
    ⟨_, e⟩ | ⟨_, _, _, e⟩ | ⟨_, _, e⟩ <;> rw [e]
  · exact nofun
  · exact nofun
  · exact rule_ne_refused d _ r

/-! ## The step at an access -/

/-- FINISH is not due while the engine is idle or some of the delay is left. -/
theorem finishDue_eq_false_iff (s : State) : s.finishDue = false ↔ s.busy = false ∨ s.busyLeft ≠ 0 := by
  cases hb : s.busy <;> simp [State.finishDue, hb]

theorem step_access {a : Access} {rest : List HostStep} (hs : s.hostSteps = .access a :: rest)
    (hd : s.finishDue = false) : step s = exec (decode (.bus a)) s.tick := by
  simp [step, hs, hd, performAccess]

/-! ## Where absorbed bytes go -/

/-- Bytes that fit, or just fill the buffer, overwrite the places from BUFCNT on and no other. -/
theorem absorbBytes_buf_of_fit (s : State) (xs : List Byte) (hfit : s.bufcnt.toNat + xs.length ≤ 64) {j : Nat}
    (hj : j < 64) :
    blockByte (s.absorbBytes xs).buf j =
      if s.bufcnt.toNat ≤ j ∧ j < s.bufcnt.toNat + xs.length then xs.getD (j - s.bufcnt.toNat) 0
      else blockByte s.buf j := by
  rcases Nat.lt_or_eq_of_le hfit with hlt | heq
  · obtain ⟨_, _, hbuf⟩ := absorbBytes_append xs s hlt
    exact hbuf j hj
  · obtain ⟨full, hfull, _, _, hbuf⟩ := absorbBytes_fill xs s heq.ge (by omega)
    rw [hbuf j hj, if_neg (by omega), hfull j hj]
    by_cases hlow : j < s.bufcnt.toNat
    · rw [if_pos hlow, if_neg (by omega)]
    · rw [if_neg hlow, if_pos (by omega)]

/-- The four byte lanes of DATA make it up again (R56). -/
theorem wordBE_dataByte (d : Word) : wordBE (dataByte d 0) (dataByte d 1) (dataByte d 2) (dataByte d 3) = d :=
  wordBE_extract d

/-- Where ABSORB 4 puts DATA when it fits: lane `k` at `BUFCNT + k`. -/
theorem absorbData_four_buf (s : State) (hfit : s.bufcnt.toNat + 4 ≤ 64) {j : Nat} (hj : j < 64) :
    blockByte (s.absorbData 4).buf j =
      if s.bufcnt.toNat ≤ j ∧ j < s.bufcnt.toNat + 4 then dataByte s.data (j - s.bufcnt.toNat)
      else blockByte s.buf j := by
  rw [State.absorbData_buf, absorbBytes_buf_of_fit s _ (by simpa using hfit) hj, absorbOperand_length]
  split
  next hin => exact absorbOperand_getD _ _ _ (by omega)
  next => rfl

/-- The loaded schedule words after an aligned ABSORB 4 (R56, R129). -/
theorem schedule_absorbData_four (s : State) (halign : s.bufcnt.toNat % 4 = 0) {k : Nat} (hk : k < 16) :
    (schedule (s.absorbData 4).buf).getD k 0 =
      if k = s.bufcnt.toNat / 4 then s.data else (schedule s.buf).getD k 0 := by
  have hlt := s.bufcnt.isLt
  have hbyte : ∀ b, b < 4 → blockByte (s.absorbData 4).buf (4 * k + b) =
      if k = s.bufcnt.toNat / 4 then dataByte s.data b else blockByte s.buf (4 * k + b) := by
    intro b hb
    rw [absorbData_four_buf s (by omega) (by omega)]
    by_cases hword : k = s.bufcnt.toNat / 4
    · rw [if_pos hword, if_pos (by omega), show 4 * k + b - s.bufcnt.toNat = b by omega]
    · rw [if_neg hword, if_neg (by omega)]
  rw [schedule_getD_load _ k hk, schedule_getD_load _ k hk, hbyte 1 (by decide), hbyte 2 (by decide),
    hbyte 3 (by decide), show 4 * k = 4 * k + 0 from rfl, hbyte 0 (by decide)]
  split
  next => exact wordBE_dataByte s.data
  next => rfl

end Machine

/-! ## The statements -/

/-- Settles O5: an access decodes to (refused) exactly outside R52, and exec refuses neither a command nor any other
access. -/
theorem onlyUnsupportedAccessesAreRefused : Obligations.OnlyUnsupportedAccessesAreRefused := by
  refine ⟨fun a => ?_, fun _ _ _ => rfl, fun i s r h => ?_⟩
  · rw [decodeBus_eq_refused_iff, admitted_eq_false_iff]
  · cases hi : i.command with
    | some d => exact absurd h (exec_command_ne_refused hi s r)
    | none =>
      by_contra hne
      obtain ⟨t, ht⟩ := exec_access_next hi (fun w o e => hne ⟨w, o, e⟩) s
      rw [ht] at h
      cases h

/-- Settles O17: lane `b` of DATA is byte `b` of schedule word BUFCNT/4, and ABSORB 4 writes no other byte. -/
theorem alignedWordIsAScheduleWord : Obligations.AlignedWordIsAScheduleWord := by
  intro s hb hf hl halign
  have hlt := s.bufcnt.isLt
  have hexec : exec .absorb4 s = .next (s.complete.setBusy.absorbData 4) :=
    (performCommand_of_legal hb (.inl (by simp [hf]))).trans (absorb_of_ok hf hl)
  refine ⟨_, hexec, ?_, fun k hk hne => ?_⟩
  · exact (schedule_absorbData_four s.complete.setBusy halign (by omega)).trans (if_pos rfl)
  · exact (schedule_absorbData_four s.complete.setBusy halign hk).trans (if_neg hne)

/-- Settles O6: what the step does at an access, with the engine step that passes spelled out. -/
theorem stepPerformsTheNextAccess : Obligations.StepPerformsTheNextAccess := by
  intro s a rest hs hd
  rw [step_access hs ((finishDue_eq_false_iff s).mpr hd), tick_eq, State.tick_busyLeft]

/-- Settles O7: the access that carries the instruction runs what its encoding stands for, which is the instruction. -/
theorem issuedInstructionRuns : Obligations.IssuedInstructionRuns := by
  intro i s rest hi hs hd
  rw [stepPerformsTheNextAccess s i.toAccess rest hs hd, Instr.toAccess, exec_decode_toAccess, decode_encode_of_wf hi]

/-- Settles O57: inside the window the offset is the address less SHA_BASE and fits bits 5:0; below and above it there
is no access. -/
theorem windowAddressesAreOffsets : Obligations.WindowAddressesAreOffsets := by
  intro k addr width write v
  constructor
  · rintro off hoff rfl
    obtain ⟨hwrite, hfield⟩ := op7Of_fields write (BitVec.ofNat 6 off)
    refine ⟨⟨width, op7Of write (BitVec.ofNat 6 off), v⟩, ?_, rfl, rfl, hwrite, ?_⟩
    · simp [windowAccess, Config.windowBytes, hoff]
    · rw [hfield, BitVec.toNat_ofNat, Nat.mod_eq_of_lt hoff]
  · intro hout
    refine if_neg ?_
    rw [Config.windowBytes]
    omega

end Sys2Proof
end

section
/-! PROOFS. The encoding family (spec/30_encoding.md): both opcode maps, decoder against encoder in both directions, table
words, the WAIT loop and the chunks of HASH. -/

namespace Sys2Proof

open Machine

/-! ## The command words -/

theorem illegalWord_of_rsv {c : Word} (h : cmdRsv c ≠ 0) : illegalWord c = true := by
  have hrsv : (c.extractLsb' 8 24 != 0) = true := bne_iff_ne.mpr h
  simp only [illegalWord, hrsv, Bool.or_true, Bool.true_or]

theorem illegalWord_of_op {c : Word} (h : cmdOp c = 0 ∨ 5 ≤ cmdOp c) : illegalWord c = true := by
  have hop : (c.extractLsb' 0 4 == 0 || decide (5 ≤ c.extractLsb' 0 4)) = true := by
    rw [Bool.or_eq_true, beq_iff_eq, decide_eq_true_iff]
    exact h
  simp only [illegalWord, hop, Bool.true_or]

/-- R75's clauses call a word illegal exactly where R79's decoder does: both reject a nonzero RSV, and on the 256 words
with RSV 0 they agree. -/
theorem decodeCmd_eq_illegal_iff (c : Word) : decodeCmd c = .illegal ↔ illegalWord c = true := by
  have agree : ∀ op arg : BitVec 4,
      decodeCmd (cmdWord op arg) = .illegal ↔ illegalWord (cmdWord op arg) = true := by decide +kernel
  by_cases hr : cmdRsv c = 0
  · rw [(cmdFields_iff c (cmdOp c) (cmdArg c)).mpr ⟨hr, rfl, rfl⟩]
    exact agree _ _
  · exact iff_of_true (if_pos hr) (illegalWord_of_rsv hr)

/-- A word is legal exactly if it is the word of a command. -/
theorem decodeCmd_ne_illegal_iff (c : Word) : decodeCmd c ≠ .illegal ↔ ∃ d : Command, d.word = some c := by
  constructor
  · intro h
    obtain ⟨w, hw⟩ := Option.ne_none_iff_exists'.mp (mt (Command.word_eq_none_iff _).mp h)
    obtain rfl : c = w := (decodeCmd_eq_iff hw c).mp rfl
    exact ⟨_, hw⟩
  · rintro ⟨d, hd⟩
    rw [(decodeCmd_eq_iff hd c).mpr rfl]
    rintro rfl
    cases hd

/-- The words of the CMD map (R74). -/
theorem exists_command_word_iff (c : Word) :
    (∃ d : Command, d.word = some c) ↔ c ∈ [0x00000001#32, 0x12#32, 0x22#32, 0x32#32, 0x42#32, 0x3#32, 0x4#32] := by
  constructor
  · rintro ⟨d, hd⟩
    cases d <;> cases hd <;> simp
  · intro h
    simp only [List.mem_cons, List.not_mem_nil, or_false] at h
    rcases h with rfl | rfl | rfl | rfl | rfl | rfl | rfl
    · exact ⟨.init, rfl⟩
    · exact ⟨.absorb1, rfl⟩
    · exact ⟨.absorb2, rfl⟩
    · exact ⟨.absorb3, rfl⟩
    · exact ⟨.absorb4, rfl⟩
    · exact ⟨.final, rfl⟩
    · exact ⟨.finalD, rfl⟩

theorem decodeCmdInstr_of_illegal {c : Word} (h : decodeCmd c = .illegal) : decodeCmdInstr c = .illegal c := by
  simp [decodeCmdInstr, h]

/-- The instruction of a legal command word is encoded as its word. -/
theorem encode_decodeCmdInstr (c : Word) : encode (decodeCmdInstr c) = .cmd c := by
  cases hd : decodeCmd c
  case illegal => rw [decodeCmdInstr_of_illegal hd]; rfl
  all_goals
    obtain rfl := (decodeCmd_eq_iff rfl c).mp hd
    rfl

theorem decodeCmdInstr_wf (c : Word) : (decodeCmdInstr c).wf = true := by
  cases hd : decodeCmd c
  case illegal =>
    rw [decodeCmdInstr_of_illegal hd]
    exact (decodeCmd_eq_illegal_iff c).mp hd
  all_goals simp [decodeCmdInstr, hd, Instr.wf]

/-! ## The bus operations -/

theorem decodeOp7_wf_of_aligned {op7 : BitVec 7} (h : op7.extractLsb' 0 2 = 0) (v : Word) :
    (decodeOp7 op7 v).wf = true := by
  refine aligned_op7_induction (P := fun k => (decodeOp7 k v).wf = true) ?_ ?_ ?_ op7 h
  · intro r hr
    fin_cases hr <;> rfl
  · intro i
    rw [decodeOp7_readH]; rfl
  · intro i
    rw [decodeOp7_writeH]; rfl

/-- Row by row, the encoder gives an aligned operation code back, with its data if it is a write. -/
theorem encode_decodeOp7_of_aligned {op7 : BitVec 7} (h : op7.extractLsb' 0 2 = 0) (v : Word) :
    encode (decodeOp7 op7 v) = .bus ⟨.word, op7, if op7.getLsbD 6 then v else 0⟩ := by
  refine aligned_op7_induction
    (P := fun k => encode (decodeOp7 k v) = .bus ⟨.word, k, if k.getLsbD 6 then v else 0⟩) ?_ ?_ ?_ op7 h
  · intro r hr
    fin_cases hr <;> rfl
  · intro i
    rw [decodeOp7_readH, (op7Of_fields false (hOffset i)).1]; rfl
  · intro i
    rw [decodeOp7_writeH, (op7Of_fields true (hOffset i)).1]; rfl

theorem admitted_iff (width : AccessWidth) (op7 : BitVec 7) :
    admitted width op7 = true ↔ width = .word ∧ op7.extractLsb' 0 2 = 0 := by simp [admitted]

theorem decodeBus_wf (a : Access) : (decodeBus a).wf = true := by
  cases hadm : admitted a.width a.op7 with
  | false =>
    rw [(decodeBus_eq_refused_iff a).mpr hadm]
    simp [Instr.wf, hadm]
  | true =>
    obtain ⟨width, op7, v⟩ := a
    obtain ⟨rfl, halign⟩ := (admitted_iff width op7).mp hadm
    exact decodeOp7_wf_of_aligned halign v

/-- The operation codes of H[i] as R74 writes them. -/
theorem op7Of_hOffset : ∀ i : Fin 8,
    op7Of false (hOffset i) = 0x20 + 4 * BitVec.ofNat 7 i.val
    ∧ op7Of true (hOffset i) = 0x60 + 4 * BitVec.ofNat 7 i.val := by decide

namespace Machine

variable {s : State} {rest : List HostStep}

/-! ## The WAIT loop -/

theorem statusWord_of_busy (hb : s.busy = true) : s.statusWord = 0x00000001 := by simp [State.statusWord, hb]

/-- Bit 0 of STATUS is clear when the engine is idle (R26). -/
theorem statusWord_getLsbD_zero_of_idle (hb : s.busy = false) : s.statusWord.getLsbD 0 = false := by
  simp [State.statusWord, hb]

theorem step_wait (hs : s.hostSteps = .wait :: rest) (hd : s.finishDue = false) :
    step s = .next (s.afterPoll (s.tick.returnRead s.tick.statusWord)) := by
  simp [step, hs, hd, performPoll_eq]

theorem step_wait_of_due (hs : s.hostSteps = .wait :: rest) (hd : s.finishDue = true) : step s = .next s.finish := by
  simp [step, hs, hd]

/-- A poll of an idle engine reads its STATUS and ends the loop. -/
theorem step_wait_of_idle (hs : s.hostSteps = .wait :: rest) (hb : s.busy = false) :
    step s = .next (s.returnRead s.statusWord) := by
  have hpoll : (s.returnRead s.statusWord).polledBusy = false := statusWord_getLsbD_zero_of_idle hb
  rw [step_wait hs ((finishDue_eq_false_iff s).mpr (.inl hb)), tick_of_idle hb]
  simp [State.afterPoll, hpoll]

/-- The state after `k` polls of a busy engine: time has passed, and the busy value has been read `k` times (R161). -/
def State.busyPolls (s : State) (k : Nat) : State :=
  { s with busyLeft := s.busyLeft - k, returned := List.replicate k 0x00000001 ++ s.returned }

@[simp] theorem State.busyPolls_zero (s : State) : s.busyPolls 0 = s := rfl
@[simp] theorem State.busyPolls_hostSteps (s : State) (k : Nat) : (s.busyPolls k).hostSteps = s.hostSteps := rfl
@[simp] theorem State.busyPolls_busy (s : State) (k : Nat) : (s.busyPolls k).busy = s.busy := rfl
@[simp] theorem State.busyPolls_busyLeft (s : State) (k : Nat) : (s.busyPolls k).busyLeft = s.busyLeft - k := rfl

theorem State.busyPolls_succ (s : State) (k : Nat) : (s.busyPolls k).busyPolls 1 = s.busyPolls (k + 1) := rfl

/-- A poll before FINISH reads the busy value, and the host polls again. -/
theorem step_wait_of_busy (hs : s.hostSteps = .wait :: rest) (hb : s.busy = true) (hn : s.busyLeft ≠ 0) :
    step s = .next (s.busyPolls 1) := by
  have htick : s.tick = { s with busyLeft := s.busyLeft - 1 } := if_pos hb
  have hpoll : (s.tick.returnRead 0x00000001).polledBusy = true := by simp [State.polledBusy]
  rw [step_wait hs ((finishDue_eq_false_iff s).mpr (.inr hn)), statusWord_of_busy (s := s.tick) (by rw [htick]; exact hb),
    State.afterPoll, if_pos hpoll, htick]
  rfl

/-- While the delay lasts every poll reads the busy value. -/
theorem run_wait_of_busy (hs : s.hostSteps = .wait :: rest) (hb : s.busy = true) {k : Nat} (hk : k ≤ s.busyLeft) :
    Sys2Proof.core.run k s = .next (s.busyPolls k) := by
  induction k with
  | zero => rfl
  | succ k ih =>
    have hleft : (s.busyPolls k).busyLeft ≠ 0 := by simp; omega
    have hpoll := step_wait_of_busy (s := s.busyPolls k) hs hb hleft
    rw [run_add (ih (by omega)), run_succ_of_next hpoll, run_zero, State.busyPolls_succ]

/-- The loop of a busy engine: polls until the delay has passed, FINISH, and the poll that ends it. -/
theorem run_wait_of_busy_ends (hs : s.hostSteps = .wait :: rest) (hb : s.busy = true) :
    Sys2Proof.core.run (s.busyLeft + 2) s =
      .next ((s.busyPolls s.busyLeft).finish.returnRead (s.busyPolls s.busyLeft).finish.statusWord) := by
  have hdue : (s.busyPolls s.busyLeft).finishDue = true := by simp [State.finishDue, hb]
  have hfinish := step_wait_of_due (s := s.busyPolls s.busyLeft) hs hdue
  have hlast := step_wait_of_idle (s := (s.busyPolls s.busyLeft).finish) hs rfl
  rw [run_add (run_wait_of_busy hs hb le_rfl), run_succ_of_next hfinish, run_succ_of_next hlast, run_zero]

/-! ## The chunks of HASH -/

/-- The byte lanes of a word are the bytes it is made of (R8, R56). -/
theorem absorbOperand_wordBE_four (b0 b1 b2 b3 : Byte) : absorbOperand (wordBE b0 b1 b2 b3) 4 = [b0, b1, b2, b3] := by
  have lane : ∀ (k : Nat) (b : Byte), (wordBE b0 b1 b2 b3).toNat / 2 ^ (24 - 8 * k) % 256 = b.toNat →
      dataByte (wordBE b0 b1 b2 b3) k = b := by
    intro k b h
    apply BitVec.eq_of_toNat_eq
    rw [dataByte, BitVec.extractLsb'_toNat, Nat.shiftRight_eq_div_pow]
    exact h
  have h0 := b0.isLt
  have h1 := b1.isLt
  have h2 := b2.isLt
  have h3 := b3.isLt
  have hw := wordBE_toNat b0 b1 b2 b3
  simp only [absorbOperand, List.range_succ, List.range_zero, List.nil_append, List.cons_append, List.map_cons,
    List.map_nil]
  rw [lane 0 b0 (by omega), lane 1 b1 (by omega), lane 2 b2 (by omega), lane 3 b3 (by omega)]

/-- An ABSORB of `n` bytes takes the first `n` of the four. -/
theorem absorbOperand_wordBE (b0 b1 b2 b3 : Byte) {n : Nat} (hn : n ≤ 4) :
    absorbOperand (wordBE b0 b1 b2 b3) n = [b0, b1, b2, b3].take n := by
  rw [← absorbOperand_wordBE_four, absorbOperand, absorbOperand, ← List.map_take, List.take_range, Nat.min_eq_left hn]

theorem chunkBytes_cons (c : Word × Nat) (cs : List (Word × Nat)) :
    chunkBytes (c :: cs) = absorbOperand c.1 c.2 ++ chunkBytes cs := rfl

theorem chunkBytes_hashChunks (m : Message) : chunkBytes (hashChunks m) = m := by
  fun_induction hashChunks m with
  | case1 b0 b1 b2 b3 rest ih => rw [chunkBytes_cons, ih, absorbOperand_wordBE_four]; rfl
  | case2 b0 b1 b2 => rw [chunkBytes_cons, absorbOperand_wordBE _ _ _ _ (by simp)]; rfl
  | case3 b0 b1 => rw [chunkBytes_cons, absorbOperand_wordBE _ _ _ _ (by simp)]; rfl
  | case4 b0 => rw [chunkBytes_cons, absorbOperand_wordBE _ _ _ _ (by simp)]; rfl
  | case5 => rfl

theorem hashChunks_size (m : Message) : ∀ c ∈ hashChunks m, 1 ≤ c.2 ∧ c.2 ≤ 4 := by
  fun_induction hashChunks m with
  | case1 b0 b1 b2 b3 rest ih => exact List.forall_mem_cons.mpr ⟨by simp, ih⟩
  | case2 | case3 | case4 => simp
  | case5 => exact nofun

/-! ## Numbered table words -/

/-- A numbered word that decodes is placed as the access that carries its encoding (log 12). -/
theorem withFetchWord_of_decodeTableWord {nbits w : Nat} {i : Instr} (h : decodeTableWord nbits w = some i)
    (s : State) : ∃ e, i = decode e ∧ s.withFetchWord nbits w = s.issue e.toAccess := by
  unfold decodeTableWord at h
  cases hu : unpackTableWord nbits w with
  | ok e =>
    rw [hu] at h
    exact ⟨e, (Option.some.inj h).symm, by simp [State.withFetchWord, tableAccess, hu]⟩
  | error r => rw [hu] at h; cases h

/-- An access placed first runs in the very next step (log 13). -/
theorem step_issue (s : State) (a : Access) : step (s.issue a) = exec (decode (.bus a)) (s.issue a) := by
  have hb : (s.issue a).busy = false := rfl
  rw [step_access (rest := s.hostSteps) rfl ((finishDue_eq_false_iff _).mpr (.inl hb)), tick_of_idle hb]

end Machine

/-! ## The statements -/

/-- Settles O3, over the rows of the table: a command row by its word, a bus row by its operation code. -/
theorem decodeOfEncodeIsTheInstruction : Obligations.DecodeOfEncodeIsTheInstruction :=
  fun _ hi => decode_encode_of_wf hi

/-- Settles O2: the decoder tests for the words of the CMD map, and R75's clauses hold of the rest. -/
theorem legalWordsAreExactlySeven : Obligations.LegalWordsAreExactlySeven := by
  refine ⟨decodeCmd_eq_illegal_iff, fun c => (decodeCmd_ne_illegal_iff c).trans (exists_command_word_iff c),
    fun c => ?_, fun op7 v s h => ?_⟩
  · exact ⟨decodeCmd_eq_iff rfl c, decodeCmd_eq_iff rfl c, decodeCmd_eq_iff rfl c, decodeCmd_eq_iff rfl c,
      decodeCmd_eq_iff rfl c, decodeCmd_eq_iff rfl c, decodeCmd_eq_iff rfl c⟩
  · rw [show decodeBus ⟨.word, op7, v⟩ = .refused .word op7 from decodeOp7_of_misaligned h v]
    rfl

/-- Settles O4: a command word by its command, an aligned access by its row, and any other access by the row
(refused), which keeps width and operation code. -/
theorem encodeOfDecodeIsTheWord : Obligations.EncodeOfDecodeIsTheWord := by
  refine ⟨fun e => ?_, encode_decodeCmdInstr, fun op7 v hw hadm => ?_, fun width op7 h => ?_⟩
  · cases e with
    | bus a => exact decodeBus_wf a
    | cmd c => exact decodeCmdInstr_wf c
  · obtain ⟨_, halign⟩ := (admitted_iff .word op7).mp hadm
    exact (encode_decodeOp7_of_aligned halign v).trans (by rw [if_pos hw])
  · cases hadm : admitted width op7 with
    | false =>
      rw [show decode (.bus ⟨width, op7, 0⟩) = .refused width op7 from (decodeBus_eq_refused_iff _).mpr hadm]
      rfl
    | true =>
      obtain ⟨rfl, halign⟩ := (admitted_iff width op7).mp hadm
      exact (encode_decodeOp7_of_aligned halign 0).trans (by rw [ite_self])

/-- Settles O37: polls until the delay has passed, FINISH, and one more poll; an idle engine needs that one only. -/
theorem waitLoopEndsWithBusyClear : Obligations.WaitLoopEndsWithBusyClear := by
  intro s rest hs
  cases hb : s.busy with
  | false =>
    refine ⟨1, s.returnRead s.statusWord, ?_, by simp [hs], hb, ⟨rfl, rfl, rfl, rfl, rfl, rfl, rfl, rfl⟩, 0, rfl⟩
    rw [run_succ_of_next (step_wait_of_idle hs hb), run_zero]
  | true =>
    exact ⟨s.busyLeft + 2, _, run_wait_of_busy_ends hs hb, by simp [hs], rfl,
      ⟨rfl, rfl, rfl, rfl, rfl, rfl, rfl, rfl⟩, s.busyLeft, rfl⟩

/-- Settles O50, by induction along the cutting of the message. -/
theorem hashChunksCarryTheMessage : Obligations.HashChunksCarryTheMessage :=
  fun m => ⟨chunkBytes_hashChunks m, hashChunks_size m⟩

/-- Settles O1: the rows with a fixed code by evaluation, the illegal words by R75, H[i] and (refused) by the decoder's
lemmas. -/
theorem opcodeMapsAreTheTables : Obligations.OpcodeMapsAreTheTables := by
  refine ⟨⟨rfl, rfl, rfl, rfl, rfl, rfl, rfl⟩, fun c hop => ?_, fun v => ?_, fun i v => ?_, fun op7 v h => ?_⟩
  · exact decodeCmdInstr_of_illegal (decodeCmd_of_illegalWord (illegalWord_of_op hop))
  · exact ⟨rfl, rfl, rfl, rfl, rfl, rfl, rfl, rfl, rfl, rfl, rfl, rfl, rfl, rfl, rfl, rfl⟩
  · obtain ⟨hread, hwrite⟩ := op7Of_hOffset i
    rw [← hread, ← hwrite]
    exact ⟨decodeOp7_readH i v, decodeOp7_writeH i v⟩
  · exact decodeOp7_of_misaligned h v

/-- Settles O8: the word is placed as the access that carries it, and that access runs what the word stands for. -/
theorem tableWordRunsNext : Obligations.TableWordRunsNext := by
  intro s nbits w i h
  obtain ⟨e, rfl, hfetch⟩ := withFetchWord_of_decodeTableWord h s
  refine ⟨e.toAccess, hfetch, ?_⟩
  rw [hfetch, step_issue, exec_decode_toAccess]

end Sys2Proof
end

section
/-! PROOFS. The padding family (spec/40_padding.md): the forms of the block count, how many blocks there are, and the
bytes of the blocks against the closed form of the padding. -/

namespace Sys2Proof

open Machine

namespace Machine

/-! ## How many blocks -/

/-- The ceiling of (len+1+8)/64, as R101 derives it. -/
theorem blockCount_eq_div (len : Nat) : blockCount len = (len + 72) / 64 := by
  rw [blockCount]
  split <;> omega

@[simp] theorem borrowedBlocks_length (m : Message) : (borrowedBlocks m).length = m.length / 64 := by
  simp [borrowedBlocks]

/-- R105, R106: a second block exactly if the terminator and the length do not fit after the tail. -/
theorem synthesizedBlocks_length (m : Message) :
    (synthesizedBlocks m).length = 1 + (if 55 < m.length % 64 then 1 else 0) := by
  rw [synthesizedBlocks]
  split
  · next hone => simp [Nat.not_lt.mpr hone]
  · next htwo => simp [Nat.lt_of_not_le htwo]

theorem blocks_length (m : Message) : (blocks m).length = blockCount m.length := by
  rw [blocks, List.length_append, borrowedBlocks_length, synthesizedBlocks_length, blockCount, Nat.add_assoc]

/-! ## The bytes of the borrowed blocks -/

@[simp] theorem tabulate_toList (f : Nat → Byte) : (tabulate f).toList = (List.range 64).map f := rfl

/-- Reading a message byte by byte from `a` on cuts a piece out of it. -/
theorem map_getD_range {m : Message} {a n : Nat} (h : a + n ≤ m.length) :
    (List.range n).map (fun j => m.getD (a + j) 0) = (m.drop a).take n := by
  apply List.ext_getElem
  · simp; omega
  · intro j hj _
    have hj : a + j < m.length := by simp at hj; omega
    simp [hj]

/-- The first `n` borrowed blocks are the first `64 n` bytes of the message (R103). -/
theorem flatMap_borrowedBlock {m : Message} {n : Nat} (h : 64 * n ≤ m.length) :
    ((List.range n).map (borrowedBlock m)).flatMap Vector.toList = m.take (64 * n) := by
  induction n with
  | zero => rfl
  | succ n ih =>
    have hblock : (borrowedBlock m n).toList = (m.drop (64 * n)).take 64 := map_getD_range (by omega)
    rw [List.range_succ, List.map_append, List.flatMap_append, ih (by omega), Nat.mul_succ, List.take_add, ← hblock]
    simp

theorem flatMap_borrowedBlocks (m : Message) :
    (borrowedBlocks m).flatMap Vector.toList = m.take (64 * (m.length / 64)) :=
  flatMap_borrowedBlock (Nat.mul_div_le _ _)

/-! ## The bytes of the synthesized blocks -/

/-- R104: the tail, the terminator right after it, then zeros. -/
theorem map_tailByte_range (m : Message) {n k : Nat} (hn : n = m.length % 64 + 1 + k) :
    (List.range n).map (tailByte m) = m.drop (64 * (m.length / 64)) ++ 0x80 :: List.replicate k 0 := by
  have hdiv := Nat.div_add_mod m.length 64
  have htail : (List.range (m.length % 64)).map (tailByte m) = m.drop (64 * (m.length / 64)) := by
    rw [← List.take_of_length_le (l := m.drop _) (i := m.length % 64) (by simp; omega),
      ← map_getD_range (by omega)]
    exact List.map_congr_left fun j hj => if_pos (List.mem_range.mp hj)
  have hterm : tailByte m (m.length % 64) = 0x80 := by simp [tailByte]
  have hzeros : (List.range k).map (tailByte m ∘ (m.length % 64 + 1 + ·)) = List.replicate k 0 := by
    refine List.eq_replicate_iff.mpr ⟨by simp, fun b hb => ?_⟩
    obtain ⟨j, -, rfl⟩ := List.mem_map.mp hb
    rw [Function.comp_apply, tailByte, if_neg (by omega), if_neg (by omega)]
  rw [hn, List.range_add, List.range_succ, List.map_append, List.map_append, htail, List.map_map, hzeros]
  simp [hterm]

/-- R108: a last block is 56 bytes and the length field. -/
theorem map_withLength_range (len : Nat) (f : Nat → Byte) :
    (List.range 64).map (withLength len f) = (List.range 56).map f ++ be64 (bitLength len) := by
  have hfront : (List.range 56).map (withLength len f) = (List.range 56).map f :=
    List.map_congr_left fun j hj => if_pos (List.mem_range.mp hj)
  rw [List.range_add (n := 56) (m := 8), List.map_append, hfront, List.map_map]
  rfl

/-- R104-R106: what follows the borrowed blocks is the rest of the message and the padding. -/
theorem flatMap_synthesizedBlocks (m : Message) :
    (synthesizedBlocks m).flatMap Vector.toList = m.drop (64 * (m.length / 64)) ++
      0x80 :: (List.replicate ((55 + 64 - m.length % 64) % 64) 0 ++ be64 (bitLength m.length)) := by
  rw [synthesizedBlocks]
  split
  · next hone =>
    have hS1 := map_tailByte_range m (n := 56) (k := (55 + 64 - m.length % 64) % 64) (by omega)
    simp [map_withLength_range, hS1]
  · next htwo =>
    have hS1 := map_tailByte_range m (n := 64) (k := 63 - m.length % 64) (by omega)
    have hz : (55 + 64 - m.length % 64) % 64 = (63 - m.length % 64) + 56 := by omega
    rw [hz, List.replicate_add]
    simp only [List.flatMap_cons, List.flatMap_nil, tabulate_toList, map_withLength_range, hS1, List.map_const',
      List.length_range, List.append_nil, List.append_assoc, List.cons_append]

/-- R110: the closed form. -/
theorem flatMap_blocks (m : Message) : (blocks m).flatMap Vector.toList = pad m := by
  rw [blocks, List.flatMap_append, flatMap_borrowedBlocks, flatMap_synthesizedBlocks, ← List.append_assoc,
    List.take_append_drop, pad]

theorem pad_length (m : Message) : (pad m).length = 64 * blockCount m.length := by
  rw [blockCount_eq_div]
  simp only [pad, List.length_append, List.length_cons, List.length_replicate, be64_length]
  omega

end Machine

/-! ## The statements -/

/-- Settles O43: every form of the count from its definition, the numbers of blocks from those of either kind. -/
theorem blockCountIsTheNumberOfBlocks : Obligations.BlockCountIsTheNumberOfBlocks := by
  refine ⟨fun len => ?_, blocks_length, fun m => ⟨?_, borrowedBlocks_length m⟩⟩
  · have hspare : 64 - len % 64 < 9 ↔ 55 < len % 64 := by omega
    have hdiv := blockCount_eq_div len
    refine ⟨hdiv, hdiv, by omega, rfl, by omega, ?_⟩
    simp only [hspare]
    rfl
  · rw [synthesizedBlocks_length]
    split <;> decide

/-- Settles O44: the borrowed blocks are the front of the message, the synthesized ones its rest and the padding. -/
theorem blocksArePadCutIntoPieces : Obligations.BlocksArePadCutIntoPieces := by
  intro m
  refine ⟨flatMap_blocks m, pad_length m, List.take_left, (55 + 64 - m.length % 64) % 64, by omega, by omega, ?_⟩
  simp [pad, bitLength]

end Sys2Proof
end

section
/-! PROOFS. The compression family (spec/41_compression.md): the word primitives bit by bit, the two tables as integer
roots, the words of the schedule, and the working variables round by round. -/

namespace Sys2Proof

open Machine

namespace Machine

/-! ## Word primitives -/

/-- R120: the two shifts are a rotation. -/
theorem rotr_eq_rotateRight {n : Nat} (hn : n < 32) (x : Word) : rotr n x = x.rotateRight n := by
  rw [BitVec.rotateRight_def, Nat.mod_eq_of_lt hn]
  rfl

/-- R120: shifting out `n` bits divides by `2 ^ n`. -/
theorem shr_eq_ofNat_div (n : Nat) (x : Word) : shr n x = BitVec.ofNat 32 (x.toNat / 2 ^ n) := by
  rw [← Nat.shiftRight_eq_div_pow, ← BitVec.toNat_ushiftRight, BitVec.ofNat_toNat, BitVec.setWidth_eq]
  rfl

theorem getLsbD_ch (e f g : Word) {i : Nat} (hi : i < 32) :
    (ch e f g).getLsbD i = if e.getLsbD i then f.getLsbD i else g.getLsbD i := by
  rw [ch, BitVec.getLsbD_xor, BitVec.getLsbD_and, BitVec.getLsbD_and, BitVec.getLsbD_not, decide_eq_true hi]
  cases e.getLsbD i <;> simp

theorem getLsbD_maj (a b c : Word) (i : Nat) :
    (maj a b c).getLsbD i = decide (2 ≤ (a.getLsbD i).toNat + (b.getLsbD i).toNat + (c.getLsbD i).toNat) := by
  have majority : ∀ p q r : Bool, ((p && q) ^^ (p && r) ^^ (q && r)) = decide (2 ≤ p.toNat + q.toNat + r.toNat) := by
    decide
  rw [← majority]
  simp [maj]

/-! ## The tables -/

/-- The primes up to 311, the 64 of R127. -/
def romPrimes : List Nat :=
  (List.range 312).filter fun p => decide (2 ≤ p) && (List.range p).all fun d => d < 2 || p % d != 0

theorem romPrimes_eq : romPrimes =
    [2, 3, 5, 7, 11, 13, 17, 19, 23, 29, 31, 37, 41, 43, 47, 53, 59, 61, 67, 71, 73, 79, 83, 89, 97, 101, 103, 107, 109,
      113, 127, 131, 137, 139, 149, 151, 157, 163, 167, 173, 179, 181, 191, 193, 197, 199, 211, 223, 227, 229, 233, 239,
      241, 251, 257, 263, 269, 271, 277, 281, 283, 293, 307, 311] := by
  decide +kernel

theorem romPrimes_length : romPrimes.length = 64 := by rw [romPrimes_eq]; rfl

/-- The `n`-th root of `p` with 32 fractional bits, as an integer: `icbrt(p * 2^96)`, `isqrt(p * 2^64)` (R127, R128). -/
def scaledRoot (n p : Nat) : Nat := n.nthRoot (p * 2 ^ (32 * n))

/-- The defining inequalities of the integer root; below 16 it takes 36 bits. -/
theorem exists_fin_eq_scaledRoot {n p : Nat} (hn : n ≠ 0) (hp : p < 16 ^ n) : ∃ r : Fin (2 ^ 36),
    (r.val ^ n ≤ p * 2 ^ (32 * n) ∧ p * 2 ^ (32 * n) < (r.val + 1) ^ n) ∧ r.val = scaledRoot n p := by
  have hlt : scaledRoot n p < 2 ^ 36 := by
    rw [scaledRoot, Nat.nthRoot_lt_iff hn]
    calc p * 2 ^ (32 * n) < 16 ^ n * 2 ^ (32 * n) := by gcongr
      _ = (2 ^ 36) ^ n := by rw [Nat.pow_mul, ← Nat.mul_pow]; rfl
  exact ⟨⟨_, hlt⟩, ⟨Nat.pow_nthRoot_le (.inl hn), Nat.lt_pow_nthRoot_add_one hn _⟩, rfl⟩

theorem kRom_getD_toNat : ∀ t : Fin 64, (kRom.getD t 0).toNat = scaledRoot 3 (romPrimes.getD t 0) % 2 ^ 32 := by
  rw [romPrimes_eq]
  decide +kernel

theorem h0init_getElem_toNat : ∀ i : Fin 8, h0init[i].toNat = scaledRoot 2 (romPrimes.getD i 0) % 2 ^ 32 := by
  rw [romPrimes_eq]
  decide +kernel

/-! ## The schedule -/

/-- Expansion goes word by word. -/
theorem scheduleExpand_succ (n : Nat) (ws : List Word) :
    scheduleExpand (n + 1) ws = scheduleNext (scheduleExpand n ws) :: scheduleExpand n ws := by
  induction n generalizing ws with
  | zero => rfl
  | succ n ih => exact ih (scheduleNext ws :: ws)

theorem scheduleExpand_add (m n : Nat) (ws : List Word) :
    scheduleExpand (m + n) ws = scheduleExpand n (scheduleExpand m ws) := by
  induction m generalizing ws with
  | zero => rw [Nat.zero_add]; rfl
  | succ m ih => rw [Nat.succ_add]; exact ih _

/-- Word `j` of the schedule stands at position `p`, newest first, once `n` words are expanded. -/
theorem schedule_getD_eq_expand (blk : Block) {n j p : Nat} (hn : n ≤ 48) (hp : j + p = n + 15) :
    (schedule blk).getD j 0 = (scheduleExpand n (scheduleLoad blk).reverse).getD p 0 := by
  have hlen : (scheduleExpand n (scheduleLoad blk).reverse).length = 16 + n := by simp
  obtain ⟨l, hl⟩ := scheduleExpand_append (48 - n) (scheduleExpand n (scheduleLoad blk).reverse)
  rw [← scheduleExpand_add, Nat.add_sub_cancel' hn] at hl
  rw [schedule, hl, List.reverse_append, List.getD_append _ _ _ _ (by rw [List.length_reverse]; omega),
    List.getD_reverse _ (by omega)]
  congr 1
  omega

/-- R130: the recurrence. -/
theorem schedule_getD_expand (blk : Block) {i : Nat} (hi : 16 ≤ i) (hi' : i < 64) : (schedule blk).getD i 0 =
    smallSigma1 ((schedule blk).getD (i - 2) 0) + (schedule blk).getD (i - 7) 0
      + smallSigma0 ((schedule blk).getD (i - 15) 0) + (schedule blk).getD (i - 16) 0 := by
  have hn : i - 16 ≤ 48 := by omega
  rw [schedule_getD_eq_expand blk (n := i - 16 + 1) (p := 0) (by omega) (by omega), scheduleExpand_succ,
    schedule_getD_eq_expand blk (p := 1) hn (by omega), schedule_getD_eq_expand blk (p := 6) hn (by omega),
    schedule_getD_eq_expand blk (p := 14) hn (by omega), schedule_getD_eq_expand blk (p := 15) hn (by omega)]
  rfl

/-! ## The rounds -/

/-- The working variables of a compression before round `t` (R131, R132). -/
def workAt (hin : HashState) (blk : Block) (t : Nat) : WorkVars :=
  workRounds (workInit hin) ((kRom.zip (schedule blk)).take t)

/-- Round `t` takes `K[t]` and `W[t]` (R132). -/
theorem workAt_succ (hin : HashState) (blk : Block) {t : Nat} (ht : t < 64) : workAt hin blk (t + 1) =
    workRound (workAt hin blk t) (kRom.getD t 0, (schedule blk).getD t 0) := by
  have hk : t < kRom.length := ht
  have hw : t < (schedule blk).length := by simpa using ht
  rw [workAt, List.take_succ_eq_append_getElem (by simpa using ht), workRounds, List.foldl_append, List.getElem_zip,
    List.getD_eq_getElem _ _ hk, List.getD_eq_getElem _ _ hw]
  rfl

/-- R134: the accumulation takes the variables after all 64 rounds. -/
theorem compress_eq_accumulate (hin : HashState) (blk : Block) :
    compress hin blk = accumulate hin (workAt hin blk 64) := by
  rw [compress, workAt, List.take_of_length_le (by simp)]

end Machine

/-! ## The statements -/

/-- Settles O40: the tables are those of the integer roots of the primes, evaluated, and the roots meet their
inequalities. -/
theorem romWordsAreRootFractions : Obligations.RomWordsAreRootFractions := by
  have hcube : ∀ t : Fin 64, romPrimes.getD t 0 < 16 ^ 3 := by rw [romPrimes_eq]; decide
  have hsquare : ∀ i : Fin 8, romPrimes.getD i 0 < 16 ^ 2 := by rw [romPrimes_eq]; decide
  refine ⟨romPrimes_length, kRom_length, fun t => ?_, fun i => ?_⟩
  · obtain ⟨r, hr, heq⟩ := exists_fin_eq_scaledRoot (by decide) (hcube t)
    exact ⟨r, hr, heq ▸ kRom_getD_toNat t⟩
  · obtain ⟨r, hr, heq⟩ := exists_fin_eq_scaledRoot (by decide) (hsquare i)
    exact ⟨r, hr, heq ▸ h0init_getElem_toNat i⟩

/-- Settles O41: the load in the form of R8, the recurrence from the list of the words expanded so far. -/
theorem scheduleIsLoadedAndExpanded : Obligations.ScheduleIsLoadedAndExpanded := by
  refine fun blk => ⟨schedule_length blk, fun j hj => ?_, fun i hi hi' => schedule_getD_expand blk hi hi'⟩
  rw [schedule_getD_load blk j hj, wordBE_toNat]

/-- Settles O42: the sequence is that of the working variables after the first `t` rounds. -/
theorem compressRunsTheRoundsAndAccumulates : Obligations.CompressRunsTheRoundsAndAccumulates := by
  intro hin blk
  rw [compress_eq_accumulate]
  exact ⟨workAt hin blk, rfl, fun t ht => ⟨_, _, rfl, rfl, workAt_succ hin blk ht⟩, rfl, rfl, rfl, rfl, rfl, rfl, rfl, rfl⟩

/-- Settles O39: the general forms bit by bit, the sigmas as sums of rotations, the examples by evaluation. -/
theorem primitivesAreTheFormulas : Obligations.PrimitivesAreTheFormulas := by
  refine ⟨fun n x _ hn => ⟨rfl, rotr_eq_rotateRight hn x, rfl, shr_eq_ofNat_div n x⟩,
    fun e f g i hi => getLsbD_ch e f g hi, fun a b c i _ => getLsbD_maj a b c i, fun x => ?_, by decide⟩
  simp [bigSigma0, bigSigma1, smallSigma0, smallSigma1, rotr_eq_rotateRight, shr]

end Sys2Proof
end

section
/-! PROOFS. The commands family, timing (spec/42_commands.md R167-R169): FINISH, how a held access waits for it, and
that neither the delays nor the host's pauses show in what a run ends with. -/

namespace Sys2Proof

open Machine

namespace Machine

variable {s t u : State} {a : Access}

/-! ## What a performed command does to everything but the engine's own items -/

/-- No rule of a command touches BUSY, DATA or the host's side. -/
theorem RuleEnds.performed {d : Command} (h : RuleEnds d s.complete.setBusy t) : Performed s t := by
  cases h <;> subst t <;> constructor <;> simp

/-- A command on an idle engine is ignored in ERROR, unless it is INIT, or ends by its rule. -/
theorem exec_command_cases_of_idle {i : Instr} {d : Command} (hi : i.command = some d) (hb : s.busy = false)
    (h : exec i s = .next t) :
    (s.fsm = .error ∧ d ≠ .init ∧ t = s.complete.setBusy)
    ∨ ((s.fsm ≠ .error ∨ d = .init) ∧ RuleEnds d s.complete.setBusy t) := by
  rcases exec_command_cases hi h with ⟨hb', _⟩ | ⟨_, hrest⟩ | ⟨_, hrest⟩
  · rw [hb] at hb'; cases hb'
  · exact .inl hrest
  · exact .inr hrest

/-- R150: BUSY is set, DATA is left alone, and the host goes on. -/
theorem exec_command_performed {i : Instr} {d : Command} (hi : i.command = some d) (hb : s.busy = false)
    (h : exec i s = .next t) : Performed s t := by
  rcases exec_command_cases_of_idle hi hb h with ⟨_, _, rfl⟩ | ⟨_, hr⟩
  · exact ⟨rfl, rfl, rfl, rfl⟩
  · exact hr.performed

/-! ## Composing runs -/

/-- A run reaches what a run from a state it reaches reaches. -/
theorem run_trans {j k : Nat} (h : Sys2Proof.core.run j s = .next t) (h' : Sys2Proof.core.run k t = .next u) :
    Sys2Proof.core.run (j + k) s = .next u := by rw [run_add h, h']

theorem run_one (h : step s = .next t) : Sys2Proof.core.run 1 s = .next t := run_succ_of_next h

/-! ## Waiting for FINISH -/

theorem step_of_due (hr : ∀ rest, s.hostSteps ≠ .reset :: rest) (hd : s.finishDue = true) :
    step s = .next s.finish := by
  rcases step_cases (s := s) rfl with ⟨rest, hs, _⟩ | ⟨_, _, e⟩ | ⟨_, _, _, hn, _⟩ | ⟨_, _, hn, _⟩ | ⟨_, _, hn, _⟩
    | ⟨_, hn, _⟩
  · exact absurd hs (hr rest)
  · exact e
  all_goals rw [hd] at hn; cases hn

/-- The host's list makes it wait while the engine is BUSY: before FINISH only time passes. -/
def HostWaits (xs : List HostStep) : Prop :=
  (∀ rest, xs ≠ .reset :: rest)
    ∧ ∀ s : State, s.hostSteps = xs → s.busy = true → s.busyLeft ≠ 0 →
        step s = .next { s with busyLeft := s.busyLeft - 1 }

/-- R234: an access that is held waits, a command or a read of H, LEN_LO or LEN_HI. -/
theorem exec_of_held {i : Instr} (hi : i.isHeld = true) (hb : s.busy = true) : exec i s = .next s := by
  cases hc : i.command with
  | some d => rw [exec_of_command hc, performCommand_of_busy hb]
  | none =>
    cases i <;> cases hc <;> cases hi
    all_goals exact readHeld_of_busy _ hb

theorem hostWaits_held (ha : (decodeBus a).isHeld = true) (rest : List HostStep) : HostWaits (.access a :: rest) := by
  refine ⟨by simp, fun s hs hb hn => ?_⟩
  have htick : s.tick = { s with busyLeft := s.busyLeft - 1 } := if_pos hb
  rw [step_access hs ((finishDue_eq_false_iff s).mpr (.inr hn)), htick]
  exact exec_of_held ha hb

theorem hostWaits_nil : HostWaits [] := by
  refine ⟨by simp, fun s hs hb hn => ?_⟩
  have hd : s.finishDue = false := (finishDue_eq_false_iff s).mpr (.inr hn)
  simp [step, hs, hd, State.tick, hb]

/-- A host that waits sees FINISH, with nothing else changed (R167, log 5). -/
theorem run_hostWaits (hw : HostWaits s.hostSteps) :
    ∃ k n, Sys2Proof.core.run k s = .next { s with busy := false, busyLeft := n } := by
  obtain ⟨hreset, htick⟩ := hw
  cases hb : s.busy with
  | false => exact ⟨0, s.busyLeft, by rw [← hb, run_zero]⟩
  | true =>
    refine ⟨s.busyLeft + 1, 0, ?_⟩
    generalize hn : s.busyLeft = n
    induction n generalizing s with
    | zero =>
      rw [run_succ_of_next (step_of_due hreset (by simp [State.finishDue, hb, hn])), run_zero, State.finish, ← hn]
    | succ n ih =>
      have hstep := htick s rfl hb (by omega)
      rw [run_succ_of_next hstep]
      exact ih (s := { s with busyLeft := s.busyLeft - 1 }) hreset htick hb (by simp [hn])

/-! ## An engine state amid other circumstances -/

/-- The engine's items of `s` (R20), with BUSY, the delay and the host's side taken from `u`. -/
def State.amid (s u : State) : State :=
  { u with
    h := s.h, fsm := s.fsm, double := s.double, errcode := s.errcode, bufcnt := s.bufcnt, buf := s.buf, mlen := s.mlen
    data := s.data }

theorem sameButBusy_amid (s u : State) : SameButBusy s (s.amid u) := ⟨rfl, rfl, rfl, rfl, rfl, rfl, rfl, rfl⟩

end Machine

variable {s t u : State}

/-- A state with the engine's items of `s` is `s` amid circumstances of its own. -/
theorem SameButBusy.eq_amid (h : SameButBusy s u) : u = s.amid u := by
  obtain ⟨hh, hf, hd, he, hc, hb, hm, hdata⟩ := h
  rw [State.amid, ← hh, ← hf, ← hd, ← he, ← hc, ← hb, ← hm, ← hdata]

theorem SameButBusy.of_eq_amid (h : u = s.amid u) : SameButBusy s u := by
  rw [h]; exact sameButBusy_amid s u

theorem SameButBusy.refl (s : State) : SameButBusy s s := .of_eq_amid rfl

theorem SameButBusy.symm (h : SameButBusy s t) : SameButBusy t s := by
  rw [h.eq_amid]; exact .of_eq_amid rfl

theorem SameButBusy.trans (h : SameButBusy s t) (h' : SameButBusy t u) : SameButBusy s u := by
  rw [h'.eq_amid, h.eq_amid]; exact .of_eq_amid rfl

namespace Machine

variable {a : Access} {x : HostStep} {rest : List HostStep}

theorem absorbByte_amid (s u : State) (x : Byte) : (s.amid u).absorbByte x = (s.absorbByte x).amid u := by
  by_cases hc : s.bufcnt = 63
  · rw [absorbByte_of_eq hc, absorbByte_of_eq (s := s.amid u) hc]; rfl
  · rw [absorbByte_of_ne hc, absorbByte_of_ne (s := s.amid u) hc]; rfl

theorem absorbBytes_amid (s u : State) (xs : List Byte) : (s.amid u).absorbBytes xs = (s.absorbBytes xs).amid u := by
  induction xs generalizing s with
  | nil => rfl
  | cons x xs ih => exact (congrArg (State.absorbBytes · xs) (absorbByte_amid s u x)).trans (ih _)

theorem absorbData_amid (s u : State) (n : Nat) : (s.amid u).absorbData n = (s.absorbData n).amid u := by
  unfold State.absorbData
  rw [absorbBytes_amid]
  rfl

theorem absorb_amid {n : Nat} (h : absorb n s = .next t) (u : State) : absorb n (s.amid u) = .next (t.amid u) := by
  rcases absorb_cases n s with ⟨hf, e⟩ | ⟨hf, hl, e⟩ | ⟨hf, hl, e⟩ <;> cases e.symm.trans h
  · exact absorb_of_badState hf
  · exact absorb_of_overflow hf hl
  · rw [← absorbData_amid]; exact absorb_of_ok hf hl

theorem finalizeWith_amid {effect : State → State} (heffect : ∀ s u, effect (s.amid u) = (effect s).amid u)
    (h : finalizeWith effect s = .next t) (u : State) : finalizeWith effect (s.amid u) = .next (t.amid u) := by
  rcases finalizeWith_cases effect s with ⟨hf, e⟩ | ⟨hf, hp, e⟩ | ⟨hf, hp, e⟩ <;> cases e.symm.trans h
  · exact if_pos hf
  · rw [← heffect]
    exact (if_neg (not_not.mpr hf)).trans (if_pos hp)

/-- The rule of a command reads and writes the engine's items only. -/
theorem rule_amid {d : Command} (h : d.rule s = .next t) (u : State) : d.rule (s.amid u) = .next (t.amid u) := by
  cases d
  case init => cases h; rfl
  case illegal => cases h; rfl
  case final => exact finalizeWith_amid (fun _ _ => rfl) h u
  case finalD => exact finalizeWith_amid (fun _ _ => rfl) h u
  all_goals exact absorb_amid h u

/-- A command on an idle engine does the same to the engine, whatever the delays and the host. -/
theorem exec_command_amid {i : Instr} {d : Command} (hi : i.command = some d) (hs : s.busy = false)
    (hu : u.busy = false) (h : exec i s = .next t) : exec i (s.amid u) = .next (t.amid u.complete.setBusy) := by
  rw [exec_of_command hi] at h ⊢
  rcases performCommand_cases h with ⟨hb, _⟩ | ⟨_, he, hn, e⟩ | ⟨_, hl, e⟩
  · rw [hs] at hb; cases hb
  · cases e
    rw [hn]
    exact performCommand_of_error hu he
  · exact (performCommand_of_legal (s := s.amid u) hu hl).trans (rule_amid e.symm u.complete.setBusy)

/-- `i` took `s` to `t` and the host moved on. Amid the circumstances of `u` it does the same, and what is read is the
same too, unless it is STATUS. -/
def DoneAmid (i : Instr) (s t u : State) : Prop :=
  t.hostSteps = s.hostSteps.tail ∧ ∃ u', exec i (s.amid u) = .next (t.amid u') ∧ u'.hostSteps = u.hostSteps.tail
    ∧ (i ≠ .rdStatus → u.returned = s.returned → u'.returned = t.returned)

theorem doneAmid_read {i : Instr} {v : Word} (h : exec i (s.amid u) = .next ((s.amid u).returnRead v)) :
    DoneAmid i s (s.returnRead v) u :=
  ⟨rfl, u.returnRead v, h, rfl, fun _ hret => congrArg (v :: ·) hret⟩

theorem doneAmid_readHeld {i : Instr} {v : Word} (hs : s.busy = false) (hu : u.busy = false)
    (hi : exec i (s.amid u) = readHeld v (s.amid u)) (h : readHeld v s = .next t) : DoneAmid i s t u := by
  rw [readHeld_of_idle v hs] at h
  rw [readHeld_of_idle v (show (s.amid u).busy = false from hu)] at hi
  cases h
  exact doneAmid_read hi

/-- An access that is not held does the same to the engine, whatever the delays and the host. -/
theorem exec_access_amid {i : Instr} (hi : i.command = none) (hs : i.isHeld = true → s.busy = false)
    (hu : i.isHeld = true → u.busy = false) (h : exec i s = .next t) : DoneAmid i s t u := by
  cases i <;> cases hi
  case rdLenLo => exact doneAmid_readHeld (hs rfl) (hu rfl) rfl h
  case rdLenHi => exact doneAmid_readHeld (hs rfl) (hu rfl) rfl h
  case rdH => exact doneAmid_readHeld (hs rfl) (hu rfl) rfl h
  case rdStatus => cases h; exact ⟨rfl, u.returnRead (s.amid u).statusWord, rfl, rfl, fun hn => absurd rfl hn⟩
  case refused => cases h
  case rdCmd | rdData | rdReserved14 | rdReserved18 | rdReserved1C => cases h; exact doneAmid_read rfl
  all_goals cases h; exact ⟨rfl, u.complete, rfl, rfl, fun _ hret => hret⟩

theorem isHeld_of_command {i : Instr} {d : Command} (hi : i.command = some d) : i.isHeld = true := by
  cases i <;> cases hi <;> rfl

/-- An instruction that is not held does the same to the engine, whatever the delays and the host. -/
theorem exec_amid {i : Instr} (hs : i.isHeld = true → s.busy = false) (hu : i.isHeld = true → u.busy = false)
    (h : exec i s = .next t) : DoneAmid i s t u := by
  cases hi : i.command with
  | none => exact exec_access_amid hi hs hu h
  | some d =>
    have hheld := isHeld_of_command hi
    have hperf := exec_command_performed hi (hs hheld) h
    exact ⟨hperf.hostSteps, _, exec_command_amid hi (hs hheld) (hu hheld) h, rfl,
      fun _ hret => hret.trans hperf.returned.symm⟩

/-! ## Time passing unseen -/

/-- The host's entry `x` taken off, its pauses apart. -/
theorem activeSteps_of_tail {x : HostStep} (hs : s.hostSteps = x :: rest) (hx : x ≠ .pause)
    (ht : t.hostSteps = s.hostSteps.tail) : t.activeSteps = s.activeSteps.tail := by
  simp [State.activeSteps, ht, hs, hx]

theorem activeSteps_of_cons {x : HostStep} (hs : s.hostSteps = x :: rest) (hx : x ≠ .pause) :
    s.activeSteps = x :: s.activeSteps.tail := by
  simp [State.activeSteps, hs, hx]

/-- With no pause in front, what the host does next is the first of its active steps. -/
theorem hostSteps_of_activeSteps {x : HostStep} {xs : List HostStep} (hp : ∀ rest, s.hostSteps ≠ .pause :: rest)
    (ha : s.activeSteps = x :: xs) : ∃ rest, s.hostSteps = x :: rest := by
  cases hs : s.hostSteps with
  | nil => simp [State.activeSteps, hs] at ha
  | cons y ys =>
    have hy : y ≠ .pause := fun e => hp ys (by rw [hs, e])
    rw [activeSteps_of_cons hs hy] at ha
    exact ⟨ys, by rw [(List.cons.inj ha).1]⟩

/-- Some steps take `s` to `t`, and all that has changed is BUSY, the delay and the host's pauses. -/
structure Drifts (s t : State) : Prop where
  run      : ∃ k, Sys2Proof.core.run k s = .next t
  same     : SameButBusy s t
  steps    : t.activeSteps = s.activeSteps
  returned : t.returned = s.returned

theorem Drifts.refl (s : State) : Drifts s s := ⟨⟨0, rfl⟩, .refl s, rfl, rfl⟩

theorem Drifts.trans (h : Drifts s t) (h' : Drifts t u) : Drifts s u := by
  obtain ⟨j, hj⟩ := h.run
  obtain ⟨k, hk⟩ := h'.run
  exact ⟨⟨j + k, run_trans hj hk⟩, h.same.trans h'.same, h'.steps.trans h.steps, h'.returned.trans h.returned⟩

theorem drifts_finish (hr : ∀ rest, s.hostSteps ≠ .reset :: rest) (hd : s.finishDue = true) : Drifts s s.finish :=
  ⟨⟨1, run_one (step_of_due hr hd)⟩, .of_eq_amid rfl, rfl, rfl⟩

/-- A host that waits sees the engine idle. -/
theorem exists_drifts_idle (hw : HostWaits s.hostSteps) :
    ∃ t, Drifts s t ∧ t.hostSteps = s.hostSteps ∧ t.busy = false := by
  obtain ⟨k, n, hk⟩ := run_hostWaits hw
  exact ⟨_, ⟨⟨k, hk⟩, .of_eq_amid rfl, rfl, rfl⟩, rfl, rfl⟩

/-- A FINISH that is due comes before the host's next step, unless that is a reset. -/
theorem exists_drifts_not_due (hr : ∀ rest, s.hostSteps ≠ .reset :: rest) :
    ∃ t, Drifts s t ∧ t.hostSteps = s.hostSteps ∧ t.finishDue = false := by
  cases hd : s.finishDue with
  | false => exact ⟨s, .refl s, rfl, hd⟩
  | true => exact ⟨s.finish, drifts_finish hr hd, rfl, rfl⟩

/-- One pause, and FINISH before it where it is due. -/
theorem drifts_pause (hs : s.hostSteps = .pause :: rest) : ∃ t, Drifts s t ∧ t.hostSteps = rest := by
  obtain ⟨t, hdrift, ht, hd⟩ := exists_drifts_not_due (s := s) (by simp [hs])
  have hpause : step t = .next t.tick.complete := by simp [step, ht, hs, hd]
  refine ⟨_, hdrift.trans ⟨⟨1, run_one hpause⟩, ?_, ?_, ?_⟩, by simp [ht, hs]⟩
  · rw [tick_eq]; exact .of_eq_amid rfl
  · simp [State.activeSteps, ht, hs]
  · simp

theorem exists_drifts_past_pauses (s : State) : ∃ t, Drifts s t ∧ ∀ rest, t.hostSteps ≠ .pause :: rest := by
  generalize hs : s.hostSteps = xs
  induction xs generalizing s with
  | nil => exact ⟨s, .refl s, by simp [hs]⟩
  | cons x xs ih =>
    by_cases hx : x = .pause
    · obtain ⟨t, hdrift, ht⟩ := drifts_pause (hx ▸ hs)
      obtain ⟨u, hdrift', hu⟩ := ih t ht
      exact ⟨u, hdrift.trans hdrift', hu⟩
    · exact ⟨s, .refl s, by simp [hs, hx]⟩

/-- The host comes to the first of its active steps. -/
theorem exists_drifts_to_active {x : HostStep} {xs : List HostStep} (ha : s.activeSteps = x :: xs) :
    ∃ t rest, Drifts s t ∧ t.hostSteps = x :: rest := by
  obtain ⟨t, hdrift, hp⟩ := exists_drifts_past_pauses s
  obtain ⟨rest, ht⟩ := hostSteps_of_activeSteps hp (hdrift.steps.trans ha)
  exact ⟨t, rest, hdrift, ht⟩

/-- The host comes to an access, and the engine to where the access is not held. -/
theorem exists_drifts_to_access {xs : List HostStep} (ha : s.activeSteps = .access a :: xs) :
    ∃ t rest, Drifts s t ∧ t.hostSteps = .access a :: rest ∧ t.finishDue = false
      ∧ ((decodeBus a).isHeld = true → t.busy = false) := by
  obtain ⟨t, rest, hdrift, ht⟩ := exists_drifts_to_active ha
  cases hheld : (decodeBus a).isHeld with
  | true =>
    obtain ⟨u, hdrift', hu, hb⟩ := exists_drifts_idle (s := t) (ht ▸ hostWaits_held hheld rest)
    exact ⟨u, rest, hdrift.trans hdrift', hu.trans ht, (finishDue_eq_false_iff u).mpr (.inl hb), fun _ => hb⟩
  | false =>
    obtain ⟨u, hdrift', hu, hd⟩ := exists_drifts_not_due (s := t) (by simp [ht])
    exact ⟨u, rest, hdrift.trans hdrift', hu.trans ht, hd, fun h => by cases h⟩

/-- A host with only pauses left ends its run. -/
theorem exists_drifts_ended (ha : s.activeSteps = []) : ∃ t, Drifts s t ∧ t.Ended := by
  obtain ⟨t, hdrift, hp⟩ := exists_drifts_past_pauses s
  have ht : t.hostSteps = [] := by
    cases hs : t.hostSteps with
    | nil => rfl
    | cons x xs =>
      have := activeSteps_of_cons hs fun e => hp xs (by rw [hs, e])
      rw [hdrift.steps, ha] at this
      cases this
  obtain ⟨u, hdrift', hu, hb⟩ := exists_drifts_idle (s := t) (ht ▸ hostWaits_nil)
  exact ⟨u, hdrift.trans hdrift', hb, hu.trans ht⟩

/-! ## One run against another -/

/-- What a step does for the host: nothing that is seen but by a poll, or the next of its active steps. -/
inductive Progress (s t : State) : Prop where
  | unseen (hsame : SameButBusy s t) (hsteps : t.activeSteps = s.activeSteps)
      (hret : t.returned = s.returned ∨ ∃ rest, s.hostSteps = .wait :: rest)
  | reset (rest : List HostStep) (hs : s.hostSteps = .reset :: rest) (ht : t = s.resetEngine)
  | access (a : Access) (rest : List HostStep) (hs : s.hostSteps = .access a :: rest)
      (hb : (decodeBus a).isHeld = true → s.busy = false) (ht : exec (decodeBus a) s.tick = .next t)
  | waited (rest : List HostStep) (hs : s.hostSteps = .wait :: rest) (hsame : SameButBusy s t)
      (ht : t.hostSteps = rest)

theorem sameButBusy_tick (s : State) : SameButBusy s s.tick := by
  rw [tick_eq]; exact .of_eq_amid rfl

theorem tick_activeSteps (s : State) : s.tick.activeSteps = s.activeSteps := by simp [State.activeSteps]

/-- A poll either goes on or ends the WAIT loop, and the engine keeps its items. -/
theorem progress_poll (hs : s.hostSteps = .wait :: rest) (h : performPoll s = .next t) : Progress s t := by
  rw [performPoll_eq] at h
  cases h
  unfold State.afterPoll
  split
  · exact .unseen ((sameButBusy_tick s).trans (.of_eq_amid rfl)) rfl (.inr ⟨rest, hs⟩)
  · exact .waited rest hs ((sameButBusy_tick s).trans (.of_eq_amid rfl)) (by simp [hs])

theorem step_progress (h : step s = .next t) : Progress s t := by
  rcases step_cases h with ⟨rest, hs, e⟩ | ⟨_, _, e⟩ | ⟨a, rest, hs, _, e⟩ | ⟨rest, hs, _, e⟩ | ⟨rest, hs, _, e⟩
    | ⟨hs, _, e⟩
  · exact .reset rest hs (Host.Outcome.next.inj e)
  · cases e
    exact .unseen (.of_eq_amid rfl) rfl (.inl rfl)
  · by_cases hb : (decodeBus a).isHeld = true → s.busy = false
    · exact .access a rest hs hb e.symm
    · obtain ⟨hheld, hbusy⟩ := Classical.not_imp.mp hb
      rw [exec_of_held hheld (by simpa using hbusy)] at e
      cases e
      exact .unseen (sameButBusy_tick s) (tick_activeSteps s) (.inl (by simp))
  · exact progress_poll hs e.symm
  · cases e
    exact .unseen ((sameButBusy_tick s).trans (.of_eq_amid rfl)) (by simp [State.activeSteps, hs]) (.inl (by simp))
  · cases e
    exact .unseen (sameButBusy_tick s) (tick_activeSteps s) (.inl (by simp))

/-- The two runs are at the same place: the engine's items agree, the host has the same left to do, and where it never
looks at STATUS it has read the same. -/
structure InStep (quiet : Prop) (s u : State) : Prop where
  same     : SameButBusy s u
  steps    : u.activeSteps = s.activeSteps
  unpolled : quiet → ∀ x ∈ s.activeSteps, x.polls = false
  returned : quiet → u.returned = s.returned

variable {quiet : Prop}

theorem InStep.drifts (h : InStep quiet s u) (hd : Drifts u t) : InStep quiet s t where
  same := h.same.trans hd.same
  steps := hd.steps.trans h.steps
  unpolled := h.unpolled
  returned hq := hd.returned.trans (h.returned hq)

/-- Both hosts take the next of their active steps off. -/
theorem InStep.of_tail {s' u' : State} {x : HostStep} {rest rest' : List HostStep} (h : InStep quiet s u)
    (hx : x ≠ .pause) (hs : s.hostSteps = x :: rest) (hu : u.hostSteps = x :: rest') (hsame : SameButBusy s' u')
    (hs' : s'.hostSteps = s.hostSteps.tail) (hu' : u'.hostSteps = u.hostSteps.tail)
    (hret : quiet → x.polls = false → u'.returned = s'.returned) : InStep quiet s' u' where
  same := hsame
  steps := by rw [activeSteps_of_tail hu hx hu', h.steps, activeSteps_of_tail hs hx hs']
  unpolled hq y hy := by
    rw [activeSteps_of_tail hs hx hs'] at hy
    exact h.unpolled hq y (List.mem_of_mem_tail hy)
  returned hq := hret hq (h.unpolled hq x (by rw [activeSteps_of_cons hs hx]; exact List.mem_cons_self))

/-- What one run does in a step, the other does in some. -/
theorem InStep.step (h : InStep quiet s u) (hstep : step s = .next t) :
    ∃ k v, Sys2Proof.core.run k u = .next v ∧ InStep quiet t v := by
  rcases step_progress hstep with ⟨hsame, hsteps, hret⟩ | ⟨rest, hs, rfl⟩ | ⟨a, rest, hs, hb, ht⟩
    | ⟨rest, hs, hsame, ht⟩
  case unseen =>
    refine ⟨0, u, rfl, hsame.symm.trans h.same, h.steps.trans hsteps.symm, hsteps ▸ h.unpolled, fun hq => ?_⟩
    rcases hret with hret | ⟨rest, hs⟩
    · exact (h.returned hq).trans hret.symm
    · have hmem : HostStep.wait ∈ s.activeSteps := by simp [State.activeSteps, hs]
      exact absurd (h.unpolled hq _ hmem) (by simp [HostStep.polls])
  case reset =>
    obtain ⟨v, rest', hdrift, hv⟩ := exists_drifts_to_active (h.steps.trans (activeSteps_of_cons hs (by simp)))
    obtain ⟨k, hk⟩ := hdrift.run
    have hreset : Machine.step v = .next v.resetEngine := by simp [Machine.step, hv]
    exact ⟨k + 1, _, run_trans hk (run_one hreset), (h.drifts hdrift).of_tail (by simp) hs hv
      (.of_eq_amid rfl) rfl rfl fun hq _ => (h.drifts hdrift).returned hq⟩
  case access =>
    obtain ⟨v, rest', hdrift, hv, hd, hbv⟩ :=
      exists_drifts_to_access (h.steps.trans (activeSteps_of_cons hs (by simp)))
    obtain ⟨k, hk⟩ := hdrift.run
    have hin := h.drifts hdrift
    obtain ⟨htail, v', hexec, htail', hret⟩ := exec_amid (u := v.tick) (by simpa using hb) (by simpa using hbv) ht
    have hamid : v.tick = s.tick.amid v.tick :=
      ((sameButBusy_tick s).symm.trans (hin.same.trans (sameButBusy_tick v))).eq_amid
    rw [← hamid] at hexec
    refine ⟨k + 1, _, run_trans hk (run_one ((step_access hv hd).trans hexec)), hin.of_tail (by simp) hs hv
      (sameButBusy_amid t v') (by simpa using htail) (htail'.trans (by simp)) fun hq hpolls => ?_⟩
    exact hret (by rintro e; simp [HostStep.polls, e] at hpolls) (by simpa using hin.returned hq)
  case waited =>
    obtain ⟨v, rest', hdrift, hv⟩ := exists_drifts_to_active (h.steps.trans (activeSteps_of_cons hs (by simp)))
    obtain ⟨k, hk⟩ := hdrift.run
    obtain ⟨j, w, hj, hw, _, hsame', _⟩ := waitLoopEndsWithBusyClear v rest' hv
    have hin := h.drifts hdrift
    exact ⟨k + j, w, run_trans hk hj, hin.of_tail (by simp) hs hv (hsame.symm.trans (hin.same.trans hsame'))
      (by rw [ht, hs]; rfl) (by rw [hw, hv]; rfl) fun _ hpolls => by cases hpolls⟩

theorem InStep.run (h : InStep quiet s u) {k : Nat} (hrun : Sys2Proof.core.run k s = .next t) :
    ∃ k' v, Sys2Proof.core.run k' u = .next v ∧ InStep quiet t v := by
  induction k generalizing s u with
  | zero => cases Host.Outcome.next.inj hrun; exact ⟨0, u, rfl, h⟩
  | succ k ih =>
    cases hs : Machine.step s with
    | next s' =>
      rw [run_succ_of_next hs] at hrun
      obtain ⟨i, v, hi, hv⟩ := h.step hs
      obtain ⟨j, w, hj, hw⟩ := ih hv hrun
      exact ⟨i + j, w, run_trans hi hj, hw⟩
    | fault r => rw [run_succ_of_fault hs] at hrun; cases hrun
    | refused r => rw [run_succ_of_refused hs] at hrun; cases hrun

/-- Settles O38, by a simulation: what one run does in a step the other does in some, and a host with only pauses left
ends. -/
theorem resultsDoNotDependOnTBusy : Obligations.ResultsDoNotDependOnTBusy := by
  intro s s' t k hs' hsteps hrun hended
  have hstart : InStep (∀ x ∈ s.hostSteps, x.polls = false) s s' := by
    refine ⟨?_, hsteps, fun hq x hx => hq x (List.mem_of_mem_filter hx), fun _ => by rw [hs']⟩
    rw [hs']; exact .of_eq_amid rfl
  obtain ⟨i, u, hi, hu⟩ := hstart.run hrun
  have hnil : u.activeSteps = [] := by rw [hu.steps, State.activeSteps, hended.2]; rfl
  obtain ⟨t', hdrift, ht'⟩ := exists_drifts_ended hnil
  obtain ⟨j, hj⟩ := hdrift.run
  have hin := hu.drifts hdrift
  exact ⟨i + j, t', run_trans hi hj, ht', hin.same, hin.returned⟩

end Machine
end Sys2Proof
end

section
/-! PROOFS. The commands family, messages (spec/42_commands.md R151-R158): the bytes the buffer holds against the
message they end, what absorbing adds to it, and what finalising makes of it. -/

namespace Sys2Proof

open Machine

namespace Machine

variable {s t : State} {m : Message}

/-! ## AbsorbByte -/

/-- R154: the byte goes to BUF[BUFCNT]. -/
theorem absorbByte_buf (s : State) (x : Byte) {j : Nat} (hj : j < 64) :
    blockByte (s.absorbByte x).buf j = if j = s.bufcnt.toNat then x else blockByte s.buf j := by
  by_cases hc : s.bufcnt = 63
  · rw [absorbByte_of_eq hc]; exact blockByte_set _ _ s.bufcnt.isLt _ _ hj
  · rw [absorbByte_of_ne hc]; exact blockByte_set _ _ s.bufcnt.isLt _ _ hj

theorem absorbByte_h_of_lt {x : Byte} (hc : s.bufcnt.toNat < 63) : (s.absorbByte x).h = s.h := by
  have hne : s.bufcnt ≠ 63 := by rintro e; simp [e] at hc
  rw [absorbByte_of_ne hne]

theorem absorbByte_h_of_full {x : Byte} (hc : s.bufcnt.toNat = 63) :
    (s.absorbByte x).h = compress s.h (s.absorbByte x).buf := by
  rw [absorbByte_of_eq (BitVec.eq_of_toNat_eq hc)]

/-! ## The bytes held and the message they end -/

/-- The buffer holds the last `len m mod 64` bytes of `m` (R30). -/
structure State.Buffers (s : State) (m : Message) : Prop where
  cnt_eq : s.bufcnt.toNat = m.length % 64
  buf_eq : ∀ j, j < m.length % 64 → blockByte s.buf j = m.getD (64 * (m.length / 64) + j) 0

theorem State.Holds.buffers (h : s.Holds m) : s.Buffers m := ⟨h.cnt_eq, h.buf_eq⟩

/-- One more byte lies behind those that were held. -/
theorem State.Buffers.absorbByte_buf (h : s.Buffers m) (x : Byte) {j : Nat} (hj : j ≤ m.length % 64) :
    blockByte (s.absorbByte x).buf j = (m ++ [x]).getD (64 * (m.length / 64) + j) 0 := by
  have hdiv := Nat.div_add_mod m.length 64
  rw [Machine.absorbByte_buf s x (by omega), h.cnt_eq]
  rcases Nat.lt_or_eq_of_le hj with hlt | rfl
  · rw [if_neg (by omega), h.buf_eq j hlt, List.getD_append _ _ _ _ (by omega)]
  · rw [if_pos rfl, hdiv]
    simp

theorem State.Buffers.absorbByte (h : s.Buffers m) (x : Byte) : (s.absorbByte x).Buffers (m ++ [x]) where
  cnt_eq := by rw [absorbByte_bufcnt, h.cnt_eq, List.length_append, List.length_singleton, Nat.mod_add_mod]
  buf_eq j hj := by
    rw [List.length_append, List.length_singleton] at hj ⊢
    rw [h.absorbByte_buf x (by omega), show (m.length + 1) / 64 = m.length / 64 by omega]

/-- The borrowed blocks of a message are the first ones of any message it begins (R103). -/
theorem map_borrowedBlock_append (m xs : Message) :
    (List.range (m.length / 64)).map (borrowedBlock (m ++ xs)) = borrowedBlocks m := by
  refine List.map_congr_left fun i hi => tabulate_congr fun j hj => ?_
  have hi := List.mem_range.mp hi
  rw [List.getD_append _ _ _ _ (by omega)]

/-- R154, R62: the bytes absorbed are compressed block by block as they fill the buffer. -/
theorem State.Buffers.absorbByte_h (hb : s.Buffers m) (hh : s.h = compressAll h0init (borrowedBlocks m)) (x : Byte) :
    (s.absorbByte x).h = compressAll h0init (borrowedBlocks (m ++ [x])) := by
  have hlen : (m ++ [x]).length = m.length + 1 := by simp
  have hcnt := hb.cnt_eq
  rw [← map_borrowedBlock_append m [x]] at hh
  rw [borrowedBlocks, hlen]
  rcases Nat.lt_or_eq_of_le (show m.length % 64 ≤ 63 by omega) with hlt | hfull
  · rw [absorbByte_h_of_lt (by omega), hh, show (m.length + 1) / 64 = m.length / 64 by omega]
  · have hblock : (s.absorbByte x).buf = borrowedBlock (m ++ [x]) (m.length / 64) := block_ext fun j hj => by
      rw [hb.absorbByte_buf x (by omega), borrowedBlock, blockByte_tabulate _ _ hj]
    rw [absorbByte_h_of_full (by omega), hblock, hh, show (m.length + 1) / 64 = m.length / 64 + 1 by omega,
      List.range_succ, List.map_append, compressAll_append]
    rfl

theorem State.Buffers.absorbBytes (hb : s.Buffers m) (hh : s.h = compressAll h0init (borrowedBlocks m))
    (xs : List Byte) : (s.absorbBytes xs).Buffers (m ++ xs)
      ∧ (s.absorbBytes xs).h = compressAll h0init (borrowedBlocks (m ++ xs)) := by
  induction xs generalizing s m with
  | nil => rw [List.append_nil]; exact ⟨hb, hh⟩
  | cons x xs ih =>
    rw [List.append_cons]
    exact ih (hb.absorbByte x) (hb.absorbByte_h hh x)

/-- ABSORB `n` extends the message held by its bytes (R155). -/
theorem State.Holds.absorbData (h : s.Holds m) {n : Nat} (hl : m.length + n ≤ Config.maxMsgBytes) :
    (s.absorbData n).Holds (m ++ absorbOperand s.data n) := by
  obtain ⟨hbuf, hh⟩ := h.buffers.absorbBytes h.h_eq (absorbOperand s.data n)
  have hlen : (m ++ absorbOperand s.data n).length = m.length + n := by simp
  exact {
    fsm_open := by simpa using h.fsm_open
    len_le := hlen ▸ hl
    mlen_eq := by rw [absorbData_mlen_toNat (by rw [h.mlen_eq]; exact hl), h.mlen_eq, hlen]
    cnt_eq := hbuf.cnt_eq
    h_eq := hh
    buf_eq := hbuf.buf_eq }

/-- A fresh message has no byte. -/
theorem State.Holds.of_fresh (hf : s.fsm = .absorbing) (hm : s.mlen = 0) (hc : s.bufcnt = 0) (hh : s.h = h0init) :
    s.Holds [] where
  fsm_open := hf
  len_le := Nat.zero_le _
  mlen_eq := by rw [hm]; rfl
  cnt_eq := by rw [hc]; rfl
  h_eq := hh
  buf_eq j hj := absurd hj (Nat.not_lt_zero j)

/-- Which message is held is a matter of the items a command's rule may write. -/
theorem SameEngine.holds (h : SameEngine s t) (hs : s.Holds m) : t.Holds m where
  fsm_open := h.fsm.trans hs.fsm_open
  len_le := hs.len_le
  mlen_eq := by rw [h.mlen]; exact hs.mlen_eq
  cnt_eq := by rw [h.bufcnt]; exact hs.cnt_eq
  h_eq := h.h.trans hs.h_eq
  buf_eq := by rw [h.buf]; exact hs.buf_eq

theorem sameEngine_complete_setBusy (s : State) : SameEngine s s.complete.setBusy :=
  ⟨rfl, rfl, rfl, rfl, rfl, rfl, rfl⟩

/-! ## Finalize -/

/-- R156: the bytes held, the terminator and zeros are the first synthesized block (R104). -/
theorem State.Buffers.paddedBuf (h : s.Buffers m) : s.paddedBuf = tabulate (tailByte m) :=
  tabulate_congr fun j _ => by
    rw [tailByte, h.cnt_eq]
    split
    next hj => exact h.buf_eq j hj
    next => rfl

/-- The last block ends with the length field (R108). -/
theorem lastBuf_eq (s : State) (len : Nat) :
    s.lastBuf len = tabulate (withLength len fun j => if s.needsTwoBlocks then 0 else blockByte s.paddedBuf j) := rfl

theorem State.Buffers.needsTwoBlocks (h : s.Buffers m) : s.needsTwoBlocks = decide (¬ m.length % 64 ≤ 55) := by
  rw [State.needsTwoBlocks, h.cnt_eq]
  exact decide_eq_decide.mpr (by omega)

/-- The blocks Finalize compresses are the synthesized ones (R105, R106), and the last of them stays in the buffer. -/
theorem State.Buffers.synthesizedBlocks_eq (h : s.Buffers m) : synthesizedBlocks m =
    if s.needsTwoBlocks then [s.paddedBuf, s.lastBuf m.length] else [s.lastBuf m.length] := by
  rw [lastBuf_eq, h.needsTwoBlocks, synthesizedBlocks]
  by_cases hone : m.length % 64 ≤ 55
  · have hlast : tabulate (withLength m.length (tailByte m))
        = tabulate (withLength m.length fun j => blockByte (tabulate (tailByte m)) j) := by
      refine tabulate_congr fun j hj => ?_
      rw [withLength, withLength, blockByte_tabulate _ _ hj]
    simp [hone, h.paddedBuf, hlast]
  · simp [hone, h.paddedBuf]

theorem State.Buffers.finalize_h (h : s.Buffers m) :
    (s.finalize m.length).h = compressAll s.h (synthesizedBlocks m) := by
  rw [h.synthesizedBlocks_eq, State.finalize_h, State.beforeLast]
  cases s.needsTwoBlocks <;> rfl

theorem State.Buffers.getLast_synthesizedBlocks (h : s.Buffers m) :
    (synthesizedBlocks m).getLast? = some (s.finalize m.length).buf := by
  rw [h.synthesizedBlocks_eq]
  cases s.needsTwoBlocks <;> rfl

/-- R151: finalising the message held gives its hash state. -/
theorem State.Holds.finalize_h (h : s.Holds m) : (s.finalize s.mlen.toNat).h = hashBlocks m := by
  rw [h.mlen_eq, h.buffers.finalize_h, h.h_eq, hashBlocks, blocks, compressAll_append]

/-! ## The second pass of FINAL_D -/

/-- The digest is held as the bytes of a message of its own (R158). -/
theorem loadDigest_buffers (s : State) : s.loadDigest.Buffers (digest s.h) where
  cnt_eq := by simp
  buf_eq j hj := by
    rw [digest_length] at hj ⊢
    have hj32 : j < 32 := hj
    rw [State.loadDigest_buf, blockByte_tabulate _ _ (by omega), if_pos hj32]
    simp

/-- A message that borrows no block is hashed from the synthesized ones alone. -/
theorem blocks_of_short (h : m.length < 64) : blocks m = synthesizedBlocks m := by
  rw [blocks, borrowedBlocks, Nat.div_eq_of_lt h]
  rfl

/-- R158: pass two hashes the digest of pass one. -/
theorem finalDState_h (s : State) : s.finalDState.h = hashBlocks (digest (s.finalize s.mlen.toNat).h) := by
  have hpass := (loadDigest_buffers (s.finalize s.mlen.toNat)).finalize_h
  rw [digest_length] at hpass
  rw [State.finalDState_h, hpass, hashBlocks, blocks_of_short (by simp)]
  rfl

/-- The one block of pass two: the digest, the terminator, zeros and `BE64(256)` (R158). -/
theorem finalDState_buf (s : State) : s.finalDState.buf.toList =
    digest (s.finalize s.mlen.toNat).h ++ [0x80] ++ List.replicate 23 0 ++ [0, 0, 0, 0, 0, 0, 1, 0] := by
  have hbuf := loadDigest_buffers (s.finalize s.mlen.toNat)
  have hone : synthesizedBlocks (digest (s.finalize s.mlen.toNat).h) = [s.finalDState.buf] := by
    rw [hbuf.synthesizedBlocks_eq, hbuf.needsTwoBlocks, digest_length]
    rfl
  have hlen : be64 (bitLength 32) = [0, 0, 0, 0, 0, 0, 1, 0] := by decide
  have hbytes := flatMap_blocks (digest (s.finalize s.mlen.toNat).h)
  rw [blocks_of_short (by simp), hone, pad, digest_length, hlen] at hbytes
  simpa using hbytes

end Machine
end Sys2Proof
end

section
/-! PROOFS. The commands family, the statements (spec/42_commands.md): each command in the states in which it is
performed, the register accesses, and a message streamed from any state. -/

namespace Sys2Proof

open Machine

theorem SameButBusy.sameEngine {s t : State} (h : SameButBusy s t) : SameEngine s t :=
  ⟨h.h, h.fsm, h.double, h.errcode, h.bufcnt, h.buf, h.mlen⟩

/-! ## The rows of ABSORB -/

/-- What a row of ABSORB stands for: its word, and the rule of its byte count. -/
theorem absorbRow_spec : ∀ p ∈ absorbRows, decodeCmdInstr ((BitVec.ofNat 32 p.2 <<< 4) ||| 0x2) = p.1 ∧ p.2 ≤ 4 := by
  simp only [absorbRows, List.forall_mem_cons]
  exact ⟨⟨rfl, by decide⟩, ⟨rfl, by decide⟩, ⟨rfl, by decide⟩, ⟨rfl, by decide⟩, nofun⟩

theorem exists_absorbRow {n : Nat} (h1 : 1 ≤ n) (h4 : n ≤ 4) : ∃ i, (i, n) ∈ absorbRows := by
  interval_cases n
  · exact ⟨.absorb1, by simp [absorbRows]⟩
  · exact ⟨.absorb2, by simp [absorbRows]⟩
  · exact ⟨.absorb3, by simp [absorbRows]⟩
  · exact ⟨.absorb4, by simp [absorbRows]⟩

namespace Machine

variable {s t u : State} {m : Message} {c : Word} {p : Instr × Nat} {rest : List HostStep}

/-- Outside ERROR an idle engine performs the rule of ABSORB (R150, R155). -/
theorem exec_absorbRow (hp : p ∈ absorbRows) (hb : s.busy = false) (he : s.fsm ≠ .error) :
    exec p.1 s = absorb p.2 s.complete.setBusy := by
  rw [← performCommand_of_legal (isInit := false) (rule := absorb p.2) hb (.inl he)]
  revert p
  simp only [absorbRows, List.forall_mem_cons]
  exact ⟨rfl, rfl, rfl, rfl, nofun⟩

theorem absorbRow_command (hp : p ∈ absorbRows) : ∃ d, p.1.command = some d := by
  revert p
  simp only [absorbRows, List.forall_mem_cons]
  exact ⟨⟨_, rfl⟩, ⟨_, rfl⟩, ⟨_, rfl⟩, ⟨_, rfl⟩, nofun⟩

/-! ## Commands that are performed -/

/-- R202, R203: entering ERROR writes BUSY, FSM and ERRCODE and nothing else. -/
theorem failed_raiseError (s : State) (code : ErrCode) : Failed code s (s.complete.setBusy.raiseError code) := by
  constructor
  case toPerformed => constructor <;> rfl
  all_goals rfl

theorem exec_absorbRow_of_ok (hp : p ∈ absorbRows) (hb : s.busy = false) (hf : s.fsm = .absorbing)
    (hl : s.mlen.toNat + p.2 ≤ Config.maxMsgBytes) : exec p.1 s = .next (s.complete.setBusy.absorbData p.2) :=
  (exec_absorbRow hp hb (by simp [hf])).trans (absorb_of_ok hf hl)

/-- FINAL and FINAL_D on an open message whose count is consistent (R156). -/
theorem finalizing_of_ready {effect : State → State} (hb : s.busy = false) (hf : s.fsm = .absorbing)
    (hc : s.bufcnt.toNat = s.mlen.toNat % 64) :
    performCommand false (finalizeWith effect) s = .next (effect s.complete.setBusy) := by
  have hready : s.complete.setBusy.paddingReady = true := by simpa [State.paddingReady] using hc
  rw [performCommand_of_legal hb (.inl (by simp [hf]))]
  exact (if_neg (not_not.mpr hf)).trans (if_pos hready)

/-- FINAL and FINAL_D in DONE (R157, R158). -/
theorem finalizing_of_done {effect : State → State} (hb : s.busy = false) (hf : s.fsm = .done) :
    performCommand false (finalizeWith effect) s = .next (s.complete.setBusy.raiseError .badState) := by
  rw [performCommand_of_legal hb (.inl (by simp [hf]))]
  exact if_pos (show s.fsm ≠ .absorbing by simp [hf])

theorem State.Holds.count_consistent (h : s.Holds m) : s.bufcnt.toNat = s.mlen.toNat % 64 := by
  rw [h.cnt_eq, h.mlen_eq]

theorem exec_init_of_idle (hb : s.busy = false) : exec .init s = .next s.complete.setBusy.initialise :=
  performCommand_of_legal hb (.inr rfl)

theorem holds_initialise (s : State) : s.initialise.Holds [] := .of_fresh rfl rfl rfl rfl

/-- FINAL in a state that holds `m` (R157). -/
theorem exec_final_of_holds (h : s.Holds m) (hb : s.busy = false) :
    exec .final s = .next s.complete.setBusy.finalState ∧ s.complete.setBusy.finalState.h = hashBlocks m :=
  ⟨finalizing_of_ready hb h.fsm_open h.count_consistent, ((sameEngine_complete_setBusy s).holds h).finalize_h⟩

/-- FINAL_D in a state that holds `m` (R158). -/
theorem exec_finalD_of_holds (h : s.Holds m) (hb : s.busy = false) :
    exec .finalD s = .next s.complete.setBusy.finalDState
      ∧ s.complete.setBusy.finalDState.h = hashBlocks (sha256 m) := by
  refine ⟨finalizing_of_ready hb h.fsm_open h.count_consistent, ?_⟩
  rw [finalDState_h, ((sameEngine_complete_setBusy s).holds h).finalize_h, sha256]

/-- ABSORB in a state that holds `m` (R155). -/
theorem exec_absorbRow_of_holds (h : s.Holds m) (hb : s.busy = false) (hp : p ∈ absorbRows)
    (hl : m.length + p.2 ≤ Config.maxMsgBytes) :
    ∃ t, exec p.1 s = .next t ∧ t.Holds (m ++ absorbOperand s.data p.2) :=
  ⟨_, exec_absorbRow_of_ok hp hb h.fsm_open (by rw [h.mlen_eq]; exact hl),
    ((sameEngine_complete_setBusy s).holds h).absorbData hl⟩

/-! ## A message streamed -/

/-- Some steps take `s` to `t`, where the host has `rest` left to do and has read nothing. -/
structure Comes (s t : State) (rest : List HostStep) : Prop where
  run       : ∃ k, Sys2Proof.core.run k s = .next t
  hostSteps : t.hostSteps = rest
  returned  : t.returned = s.returned

theorem Comes.trans {rest' : List HostStep} (h : Comes s t rest) (h' : Comes t u rest') : Comes s u rest' := by
  obtain ⟨j, hj⟩ := h.run
  obtain ⟨k, hk⟩ := h'.run
  exact ⟨⟨j + k, run_trans hj hk⟩, h'.hostSteps, h'.returned.trans h.returned⟩

/-- The write of a command word waits until the engine is idle, and its command is performed then (R234). -/
theorem exists_comes_writeCmd (hs : s.hostSteps = writeCmd c :: rest) :
    ∃ u, SameButBusy s u ∧ u.busy = false ∧ ∀ t, exec (decodeCmdInstr c) u = .next t → Comes s t rest := by
  have hwait : HostWaits s.hostSteps := by rw [hs]; exact hostWaits_held rfl rest
  obtain ⟨u, hdrift, hu, hb⟩ := exists_drifts_idle hwait
  refine ⟨u, hdrift.same, hb, fun t ht => ?_⟩
  have hperf := exec_command_performed (decodeCmdInstr_command c) hb ht
  have hstep : step u = .next t := by
    rw [step_access (hu.trans hs) ((finishDue_eq_false_iff u).mpr (.inl hb)), tick_of_idle hb, ← ht, ← exec_wrCmd]
    rfl
  obtain ⟨k, hk⟩ := hdrift.run
  exact ⟨⟨k + 1, run_trans hk (run_one hstep)⟩, by rw [hperf.hostSteps, hu, hs]; rfl,
    hperf.returned.trans hdrift.returned⟩

/-- The write to DATA is performed at once, or after a FINISH that is due. -/
theorem exists_comes_writeData {v : Word} (hs : s.hostSteps = .access (.write 0x08 v) :: rest) :
    ∃ t, Comes s t rest ∧ SameEngine s t ∧ t.data = v := by
  obtain ⟨u, hdrift, hu, hd⟩ := exists_drifts_not_due (s := s) (by simp [hs])
  obtain ⟨k, hk⟩ := hdrift.run
  have hstep : step u = .next (u.tick.stage v) := step_access (hu.trans hs) hd
  have hsame : SameButBusy s u.tick := hdrift.same.trans (sameButBusy_tick u)
  refine ⟨_, ⟨⟨k + 1, run_trans hk (run_one hstep)⟩, by simp [hu, hs], by simp [hdrift.returned]⟩, ?_, rfl⟩
  exact ⟨hsame.h, hsame.fsm, hsame.double, hsame.errcode, hsame.bufcnt, hsame.buf, hsame.mlen⟩

/-- PUT adds the first `n` bytes of its word to the message held (R78). -/
theorem exists_comes_put {v : Word} {n : Nat} (h : s.Holds m) (hs : s.hostSteps = hostPut v n ++ rest)
    (h1 : 1 ≤ n) (h4 : n ≤ 4) (hl : m.length + n ≤ Config.maxMsgBytes) :
    ∃ t, Comes s t rest ∧ t.Holds (m ++ absorbOperand v n) := by
  obtain ⟨i, hi⟩ := exists_absorbRow h1 h4
  obtain ⟨hword, -⟩ := absorbRow_spec _ hi
  obtain ⟨w, hcomes, hsame, rfl⟩ := exists_comes_writeData hs
  obtain ⟨u, hsame', hb, hexec⟩ := exists_comes_writeCmd hcomes.hostSteps
  rw [hword] at hexec
  obtain ⟨t, ht, hholds⟩ := exec_absorbRow_of_holds (hsame'.sameEngine.holds (hsame.holds h)) hb hi hl
  rw [hsame'.data] at hholds
  exact ⟨t, hcomes.trans (hexec t ht), hholds⟩

/-- The chunks of a stream add their bytes to the message held, in order (R168). -/
theorem exists_comes_chunks {chunks : List (Word × Nat)} (h : s.Holds m)
    (hs : s.hostSteps = chunks.flatMap (fun c => hostPut c.1 c.2) ++ rest) (hsize : ∀ c ∈ chunks, 1 ≤ c.2 ∧ c.2 ≤ 4)
    (hl : m.length + (chunkBytes chunks).length ≤ Config.maxMsgBytes) :
    ∃ t, Comes s t rest ∧ t.Holds (m ++ chunkBytes chunks) := by
  induction chunks generalizing s m with
  | nil => exact ⟨s, ⟨⟨0, rfl⟩, hs, rfl⟩, by simpa [chunkBytes] using h⟩
  | cons c cs ih =>
    obtain ⟨⟨h1, h4⟩, hsize⟩ := List.forall_mem_cons.mp hsize
    rw [List.flatMap_cons, List.append_assoc] at hs
    rw [chunkBytes_cons, List.length_append, absorbOperand_length] at hl
    obtain ⟨w, hcomes, hw⟩ := exists_comes_put h hs h1 h4 (by omega)
    obtain ⟨t, hcomes', ht⟩ := ih hw hcomes.hostSteps hsize (by rw [List.length_append, absorbOperand_length]; omega)
    rw [List.append_assoc, ← chunkBytes_cons] at ht
    exact ⟨t, hcomes.trans hcomes', ht⟩

/-- From any state a stream comes to its last step with the message held: INIT opens a fresh one, whatever stood there
(R153). -/
theorem exists_comes_stream {chunks : List (Word × Nat)} {last : HostStep} (hs : s.hostSteps = hostStream chunks last)
    (hsize : ∀ c ∈ chunks, 1 ≤ c.2 ∧ c.2 ≤ 4) (hl : (chunkBytes chunks).length ≤ Config.maxMsgBytes) :
    ∃ t, Comes s t [last] ∧ t.Holds (chunkBytes chunks) := by
  obtain ⟨u, _, hb, hexec⟩ := exists_comes_writeCmd hs
  have hcomes := hexec _ (exec_init_of_idle hb)
  obtain ⟨t, hcomes', ht⟩ := exists_comes_chunks (holds_initialise u.complete.setBusy) hcomes.hostSteps hsize
    (by simpa using hl)
  exact ⟨t, hcomes.trans hcomes', ht⟩

/-- The last command of a stream is performed on the message held, and the run ends after its FINISH
(log 5, log 23). -/
theorem exists_comes_streamEnd {chunks : List (Word × Nat)} (hs : s.hostSteps = hostStream chunks (writeCmd c))
    (hsize : ∀ c ∈ chunks, 1 ≤ c.2 ∧ c.2 ≤ 4) (hl : (chunkBytes chunks).length ≤ Config.maxMsgBytes)
    {effect : State → State}
    (hexec : ∀ u : State, u.Holds (chunkBytes chunks) → u.busy = false →
      exec (decodeCmdInstr c) u = .next (effect u)) :
    ∃ u t, u.Holds (chunkBytes chunks) ∧ u.busy = false ∧ Comes s t [] ∧ t.busy = false
      ∧ SameButBusy (effect u) t := by
  obtain ⟨v, hcomes, hv⟩ := exists_comes_stream hs hsize hl
  obtain ⟨u, hsame, hb, hcmd⟩ := exists_comes_writeCmd hcomes.hostSteps
  have hu := hsame.sameEngine.holds hv
  have hlast := hcmd _ (hexec u hu hb)
  obtain ⟨t, hdrift, ht, htb⟩ := exists_drifts_idle (by rw [hlast.hostSteps]; exact hostWaits_nil)
  have hend : Comes (effect u) t [] := ⟨hdrift.run, ht.trans hlast.hostSteps, hdrift.returned⟩
  exact ⟨u, t, hu, hb, (hcomes.trans hlast).trans hend, htb, hdrift.same⟩

end Machine

/-! ## The statements about messages -/

/-- Settles O49: INIT opens a message, the chunks extend it, and the last command makes its digest of it; after its
FINISH nothing is left to do. -/
theorem streamingEndsWithTheDigest : Obligations.StreamingEndsWithTheDigest := by
  intro s chunks hsize hl
  constructor
  · intro hs
    obtain ⟨u, t, hu, hb, ⟨⟨k, hk⟩, hnil, hret⟩, htb, hsame⟩ :=
      exists_comes_streamEnd hs hsize hl fun u hu hb => (exec_final_of_holds hu hb).1
    have hh : t.h = hashBlocks (chunkBytes chunks) := hsame.h.trans (exec_final_of_holds hu hb).2
    exact ⟨k, t, hk, ⟨htb, hnil⟩, hret, hh, by rw [hh, sha256], hsame.fsm, hsame.double,
      by rw [hsame.mlen]; exact hu.mlen_eq, hsame.bufcnt⟩
  · intro hs
    obtain ⟨u, t, hu, hb, ⟨⟨k, hk⟩, hnil, hret⟩, htb, hsame⟩ :=
      exists_comes_streamEnd hs hsize hl fun u hu hb => (exec_finalD_of_holds hu hb).1
    have hh : t.h = hashBlocks (sha256 (chunkBytes chunks)) := hsame.h.trans (exec_finalD_of_holds hu hb).2
    exact ⟨k, t, hk, ⟨htb, hnil⟩, hret, by rw [hh]; rfl, hsame.fsm, hsame.double,
      by rw [hsame.mlen]; exact hu.mlen_eq, hsame.bufcnt⟩

/-- Settles O46: reset and INIT open a fresh message, and ABSORB extends the one held. -/
theorem absorbExtendsTheMessageHeld : Obligations.AbsorbExtendsTheMessageHeld :=
  ⟨.of_fresh rfl rfl rfl rfl, fun _ hb => ⟨_, exec_init_of_idle hb, holds_initialise _⟩,
    fun _ _ _ hp h hb hl => exec_absorbRow_of_holds h hb hp hl⟩

/-- Settles O47: FINAL's hash state is that of the message held, and the other items are those FINAL writes. -/
theorem finalGivesSha256OfTheMessage : Obligations.FinalGivesSha256OfTheMessage := by
  intro m s h hb
  obtain ⟨hexec, hh⟩ := exec_final_of_holds h hb
  exact ⟨_, hexec, hh, by rw [hh, sha256], rfl, rfl, h.mlen_eq, rfl⟩

/-- Settles O48: the second pass hashes the digest of the first, which is that of the message held. -/
theorem finalDGivesSha256dOfTheMessage : Obligations.FinalDGivesSha256dOfTheMessage := by
  intro m s h hb
  obtain ⟨hexec, hh⟩ := exec_finalD_of_holds h hb
  exact ⟨_, hexec, hh, by rw [hh]; rfl, rfl, rfl, h.mlen_eq, rfl⟩

end Sys2Proof
end

section
/-! PROOFS. The commands family, single instructions (spec/42_commands.md R150-R167): what each command and each
register access does in one step, and FINISH. -/

namespace Sys2Proof

open Machine

namespace Machine

variable {s t : State}

/-! ## BUSY -/

/-- No instruction clears BUSY. -/
theorem exec_busy {i : Instr} (h : exec i s = .next t) (hb : s.busy = true) : t.busy = true := by
  cases hi : i.command with
  | none => rcases exec_access_cases hi h with ⟨_, rfl⟩ | rfl | ⟨_, rfl⟩ | ⟨_, rfl⟩ <;> exact hb
  | some d =>
    rw [exec_of_command hi, performCommand_of_busy hb] at h
    cases h
    exact hb

/-- R167: BUSY falls by reset or by FINISH only. -/
theorem step_clears_busy (h : step s = .next t) (hb : s.busy = true) (ht : t.busy = false) :
    (∃ rest, s.hostSteps = .reset :: rest) ∨ (s.finishDue = true ∧ t = s.finish) := by
  rcases step_cases h with ⟨rest, hs, _⟩ | ⟨_, hd, e⟩ | ⟨a, _, _, _, e⟩ | ⟨_, _, _, e⟩ | ⟨_, _, _, e⟩ | ⟨_, _, e⟩
  · exact .inl ⟨rest, hs⟩
  · exact .inr ⟨hd, Host.Outcome.next.inj e⟩
  · have := exec_busy e.symm (by simpa using hb)
    rw [ht] at this; cases this
  · rw [performPoll_eq, afterPoll_eq] at e
    cases e
    simp [hb] at ht
  · cases e; simp [hb] at ht
  · cases e; simp [hb] at ht

/-! ## The commands -/

/-- Where an open message's count is consistent, every rule of a command answers a next state (R207, log 8). -/
theorem rule_next_of_count (d : Command) (hc : s.fsm = .absorbing → s.bufcnt.toNat = s.mlen.toNat % 64) :
    ∃ t, d.rule s = .next t := by
  have finalizes : ∀ effect, ∃ t, finalizeWith effect s = .next t := by
    intro effect
    rcases finalizeWith_cases effect s with ⟨_, e⟩ | ⟨_, _, e⟩ | ⟨hf, hp, _⟩
    · exact ⟨_, e⟩
    · exact ⟨_, e⟩
    · simp [State.paddingReady, hc hf] at hp
  cases d
  case init => exact ⟨_, rfl⟩
  case illegal => exact ⟨_, rfl⟩
  case final => exact finalizes _
  case finalD => exact finalizes _
  all_goals exact absorb_next _ s

/-- R150: a command completes on an idle engine. -/
theorem exec_command_next {i : Instr} {d : Command} (hi : i.command = some d) (hb : s.busy = false)
    (hc : s.fsm = .absorbing → s.bufcnt.toNat = s.mlen.toNat % 64) : ∃ t, exec i s = .next t := by
  rw [exec_of_command hi]
  by_cases hl : s.fsm ≠ .error ∨ d.isInit = true
  · rw [performCommand_of_legal hb hl]
    exact rule_next_of_count d hc
  · obtain ⟨he, hn⟩ := not_or.mp hl
    rw [Bool.not_eq_true] at hn
    rw [hn]
    exact ⟨_, performCommand_of_error hb (not_not.mp he)⟩

/-- R208: in ERROR a command that is not INIT only sets BUSY. -/
theorem exec_command_of_error {i : Instr} {d : Command} (hi : i.command = some d) (hb : s.busy = false)
    (he : s.fsm = .error) (hd : d ≠ .init) : exec i s = .next s.complete.setBusy := by
  have hn : d.isInit = false := by
    cases d
    case init => exact absurd rfl hd
    all_goals rfl
  rw [exec_of_command hi, hn]
  exact performCommand_of_error hb he

theorem command_eq_init_iff (i : Instr) : i.command = some .init ↔ i = .init ∨ i = .wrCmd 0x00000001 := by
  cases i <;> simp [Instr.command, decodeCmd_eq_iff (d := .init) rfl]

theorem absorbData_bufcnt_toNat (s : State) (n : Nat) :
    (s.absorbData n).bufcnt.toNat = (s.bufcnt.toNat + n) % 64 := by
  rw [State.absorbData_bufcnt, absorbBytes_bufcnt, absorbOperand_length]

/-- ABSORB of bytes that leave room in the buffer: the lanes of DATA lie from BUFCNT on. -/
theorem absorbData_of_fit (s : State) {n : Nat} (hfit : s.bufcnt.toNat + n < 64) :
    (s.absorbData n).h = s.h ∧ ∀ j, j < 64 → blockByte (s.absorbData n).buf j =
      if s.bufcnt.toNat ≤ j ∧ j < s.bufcnt.toNat + n then dataByte s.data (j - s.bufcnt.toNat)
      else blockByte s.buf j := by
  obtain ⟨hh, _, hbuf⟩ := absorbBytes_append (absorbOperand s.data n) s (by simpa using hfit)
  rw [absorbOperand_length] at hbuf
  exact ⟨hh, fun j hj => (hbuf j hj).trans
    (ite_congr rfl (fun hin => absorbOperand_getD _ _ _ (by omega)) fun _ => rfl)⟩

/-- ABSORB of bytes that fill the buffer: the full block is compressed, and the lanes left over start the next one. -/
theorem absorbData_of_fill (s : State) {n : Nat} (hfill : 64 ≤ s.bufcnt.toNat + n) (hn : n ≤ 64) :
    ∃ full : Block,
      (∀ j, j < 64 → blockByte full j =
        if j < s.bufcnt.toNat then blockByte s.buf j else dataByte s.data (j - s.bufcnt.toNat))
      ∧ (s.absorbData n).h = compress s.h full
      ∧ ∀ j, j < 64 → blockByte (s.absorbData n).buf j =
          if j < s.bufcnt.toNat + n - 64 then dataByte s.data (j + 64 - s.bufcnt.toNat) else blockByte full j := by
  obtain ⟨full, hfull, hh, _, hbuf⟩ := absorbBytes_fill (absorbOperand s.data n) s (by simpa using hfill)
    (by simpa using hn)
  rw [absorbOperand_length] at hbuf
  refine ⟨full, fun j hj => (hfull j hj).trans ?_, hh, fun j hj => (hbuf j hj).trans ?_⟩
  · exact ite_congr rfl (fun _ => rfl) fun hin => absorbOperand_getD _ _ _ (by omega)
  · exact ite_congr rfl (fun hin => absorbOperand_getD _ _ _ (by omega)) fun _ => rfl

/-- R153: no other word with OP 1 is legal. -/
theorem decodeCmd_of_op_one {c : Word} (hop : cmdOp c = 1) (hne : c ≠ 0x00000001) : decodeCmd c = .illegal := by
  by_contra hlegal
  obtain ⟨d, hd⟩ := (decodeCmd_ne_illegal_iff c).mp hlegal
  cases d <;> cases hd
  case init => exact hne rfl
  all_goals exact absurd hop (by decide)

/-- R158: pass two compresses the one block it leaves in the buffer. -/
theorem finalDState_h_eq_compress_buf (s : State) : s.finalDState.h = compress h0init s.finalDState.buf := by
  have hone : (s.finalize s.mlen.toNat).loadDigest.needsTwoBlocks = false := by simp [State.needsTwoBlocks]
  rw [State.finalDState_h, State.finalize_h, State.beforeLast, hone]
  rfl

/-! ## STATUS -/

/-- A fresh message shows nothing in STATUS. -/
theorem statusWord_of_fresh (hb : s.busy = false) (hf : s.fsm = .absorbing) (hc : s.bufcnt = 0)
    (hd : s.double = false) (he : s.errcode = .none) : s.statusWord = 0 := by
  simp [State.statusWord, hb, hf, hc, hd, he, State.errFlag, State.doneFlag, flagWord, ErrCode.code]

/-- R26: STATUS after a finalising command, once it is no longer BUSY. -/
theorem statusWord_of_done (hb : s.busy = false) (hf : s.fsm = .done) (hc : s.bufcnt = 0) :
    s.statusWord = (s.errcode.code.setWidth 32 <<< 8) ||| (flagWord s.double <<< 3) ||| 0x00000002 := by
  simp [State.statusWord, hb, hc, State.errFlag, State.doneFlag, hf, flagWord]

theorem getLsbD_flagWord (b : Bool) (i : Nat) : (flagWord b).getLsbD i = (decide (i = 0) && b) := by
  cases b <;> simp [flagWord, BitVec.getLsbD_one]

/-- R26: where each field of STATUS stands. -/
theorem statusWord_getElem_of_idle (hb : s.busy = false) {i : Nat} (hi : i < 32) : s.statusWord[i] =
    (decide (16 ≤ i) && s.bufcnt.getLsbD (i - 16) || decide (8 ≤ i) && s.errcode.code.getLsbD (i - 8)
      || decide (i = 3) && s.double || decide (i = 2) && s.errFlag || decide (i = 1) && s.doneFlag) := by
  have hw : s.statusWord = _ := if_neg (by simp [hb])
  have hge : ∀ n, (!decide (i < n)) = decide (n ≤ i) := fun n => by
    rw [← decide_not]; exact decide_eq_decide.mpr Nat.not_lt
  have heq : ∀ n, (decide (n ≤ i) && decide (i - n = 0)) = decide (i = n) := fun n => by
    rw [← Bool.decide_and]; exact decide_eq_decide.mpr (by omega)
  have hlt : ∀ n, decide (i - n < 32) = true := fun n => decide_eq_true (by omega)
  rw [← BitVec.getLsbD_eq_getElem, hw]
  simp only [BitVec.getLsbD_or, BitVec.getLsbD_shiftLeft, BitVec.getLsbD_setWidth, getLsbD_flagWord, hge, hlt,
    decide_eq_true hi, Bool.true_and, ← Bool.and_assoc, heq]

/-- DONE and ERR are never both 1 (R26). -/
theorem doneFlag_and_errFlag (s : State) : (s.doneFlag && s.errFlag) = false := by
  cases hf : s.fsm <;> simp [State.doneFlag, State.errFlag, hf]

/-! ## The length registers -/

/-- R162: LEN_HI and LEN_LO make up MLEN. -/
theorem lenHi_append_lenLo (s : State) : s.lenHi ++ s.lenLo = s.mlen :=
  BitVec.extractLsb'_append_extractLsb' (w := 32) (len := 32)

theorem lenHi_toNat_le (hl : s.mlen.toNat ≤ 2 ^ 61 - 1) : s.lenHi.toNat ≤ 0x1FFFFFFF := by
  rw [State.lenHi, BitVec.extractLsb'_toNat, Nat.shiftRight_eq_div_pow]
  omega

theorem command_eq_none {i : Instr} (hi : i.isCommand = false) : i.command = none := by
  cases i <;> cases hi <;> rfl

end Machine

/-! ## The statements -/

/-- Settles O9: FINISH is the step when it is due, and no other step but a reset clears BUSY. -/
theorem finishClearsBusyOnly : Obligations.FinishClearsBusyOnly := by
  refine ⟨fun s hb hn hr => step_of_due hr (by simp [State.finishDue, hb, hn]), fun s t h hb ht => ?_⟩
  refine (step_clears_busy h hb ht).imp_right fun ⟨hd, e⟩ => ⟨?_, e⟩
  simpa [State.finishDue, hb] using hd

/-- Settles O13: WR CMD is the command its word decodes to, which is held, ignored in ERROR or performed; the rule's
example is evaluated. -/
theorem wrCmdPerformsTheDecodedCommand : Obligations.WrCmdPerformsTheDecodedCommand := by
  refine ⟨exec_wrCmd, fun c s hb => exec_of_held rfl hb, fun c s hb hc => ?_, fun c s hb he hne => ?_,
    fun c s hb he hd => ?_, ?_⟩
  · obtain ⟨t, ht⟩ := exec_command_next (i := .wrCmd c) rfl hb hc
    exact ⟨t, ht, exec_command_performed rfl hb ht⟩
  · have hn : decodeCmd c ≠ .init := fun hd => hne ((decodeCmd_eq_iff rfl c).mp hd)
    exact ⟨_, exec_command_of_error rfl hb he hn, ⟨rfl, rfl, rfl, rfl⟩, .of_eq_amid rfl⟩
  · refine ⟨_, ?_, failed_raiseError s _⟩
    rw [exec_of_command rfl, performCommand_of_legal hb (.inl he), hd]
    rfl
  · have hword : (State.reset.complete.setBusy.finalState.finish.hWord 0) = 0xe3b0c442 := by decide +kernel
    exact ⟨_, _, rfl, rfl, by rw [← hword]; rfl⟩

/-- Settles O14: the word by the decoder, the way out of ERROR by what a command does there, and the fresh message by
what INIT writes. -/
theorem initStartsANewMessage : Obligations.InitStartsANewMessage := by
  refine ⟨fun c => ⟨decodeCmd_eq_iff rfl c, decodeCmd_of_op_one⟩, fun i s t h he hne => ?_, fun s hb => ?_⟩
  · cases hi : i.command with
    | none => exact absurd ((exec_access_cases hi h).sameEngine.fsm.trans he) hne
    | some d =>
      rcases exec_command_cases hi h with ⟨_, rfl⟩ | ⟨_, _, _, rfl⟩ | ⟨_, hl, _⟩
      · exact absurd he hne
      · exact absurd he hne
      · obtain rfl := hl.resolve_left (not_not.mpr he)
        exact (command_eq_init_iff i).mp hi
  · refine ⟨_, exec_init_of_idle hb, ⟨rfl, rfl, rfl, rfl⟩, fun _ => rfl, fun j _ => blockByte_zeros j, rfl, rfl, rfl,
      rfl, rfl, statusWord_of_fresh rfl rfl rfl rfl rfl, _, exec_init_of_idle rfl, .of_eq_amid rfl⟩

/-- Settles O15: with BUFCNT at the last place or below it. -/
theorem absorbByteAppendsAndCompresses : Obligations.AbsorbByteAppendsAndCompresses := by
  intro s x
  have hlt := s.bufcnt.isLt
  have hcnt := absorbByte_bufcnt s x
  refine ⟨fun j hj => absorbByte_buf s x hj, fun hne => ⟨by omega, absorbByte_h_of_lt (by omega)⟩,
    fun hfull => ⟨BitVec.eq_of_toNat_eq ?_, absorbByte_h_of_full (by omega)⟩, ?_⟩
  · rw [hcnt, hfull]; rfl
  · by_cases hc : s.bufcnt = 63
    · rw [absorbByte_of_eq hc]
    · rw [absorbByte_of_ne hc]

/-- Settles O16: the two errors by the checks of ABSORB, and otherwise the bytes fit or fill the buffer. -/
theorem absorbAppendsItsBytes : Obligations.AbsorbAppendsItsBytes := by
  intro p hp
  obtain ⟨hword, h4⟩ := absorbRow_spec p hp
  obtain ⟨d, hd⟩ := absorbRow_command hp
  refine ⟨hword, fun s hb hf => ⟨_, ?_, failed_raiseError s _⟩, fun s hb hf hl => ⟨_, ?_, failed_raiseError s _⟩,
    fun s hb hf hl => ?_⟩
  · exact (exec_absorbRow hp hb (by simp [hf])).trans (absorb_of_badState (by simp [hf]))
  · exact (exec_absorbRow hp hb (by simp [hf])).trans (absorb_of_overflow hf hl)
  · have hexec := exec_absorbRow_of_ok hp hb hf hl
    exact ⟨_, hexec, exec_command_performed hd hb hexec, by simp [hf], by simp, by simp,
      absorbData_mlen_toNat (s := s.complete.setBusy) hl, absorbData_bufcnt_toNat s.complete.setBusy p.2,
      absorbData_of_fit s.complete.setBusy, fun hge => absorbData_of_fill s.complete.setBusy hge (by omega)⟩

/-- Settles O25: the buffer holds the rest of the message, so the blocks Finalize builds are the synthesized ones. -/
theorem finalizeCompressesTheSynthesizedBlocks : Obligations.FinalizeCompressesTheSynthesizedBlocks := by
  intro s m hcnt hbuf
  have hheld : s.Buffers m := ⟨hcnt, fun j hj => hbuf j (hcnt ▸ hj)⟩
  refine ⟨hheld.finalize_h, rfl, hheld.getLast_synthesizedBlocks, ?_, rfl⟩
  rw [synthesizedBlocks_length, hcnt]
  split <;> split <;> omega

/-- Settles O26: the rule of FINAL in DONE and on a consistent open message, and STATUS in DONE. -/
theorem finalFinishesTheMessage : Obligations.FinalFinishesTheMessage := by
  refine ⟨decodeCmd_eq_iff rfl, fun s hb hf => ⟨_, finalizing_of_done hb hf, failed_raiseError s _⟩,
    fun s hb hf hc => ?_⟩
  have hstatus := statusWord_of_done (s := s.complete.setBusy.finalState.finish) rfl rfl rfl
  refine ⟨_, finalizing_of_ready hb hf hc, ⟨rfl, rfl, rfl, rfl⟩, rfl, rfl, rfl, rfl, rfl, rfl, rfl, ?_⟩
  simpa [flagWord] using hstatus

/-- Settles O27: the rule of FINAL_D, and the block of its second pass as the padded digest. -/
theorem finalDHashesTheDigestAgain : Obligations.FinalDHashesTheDigestAgain := by
  refine ⟨decodeCmd_eq_iff rfl, fun s hb hf => ⟨_, finalizing_of_done hb hf, failed_raiseError s _⟩,
    fun s hb hf hc => ?_⟩
  have hstatus := statusWord_of_done (s := s.complete.setBusy.finalDState.finish) rfl rfl rfl
  refine ⟨_, finalizing_of_ready hb hf hc, ⟨rfl, rfl, rfl, rfl⟩,
    ⟨_, finalDState_buf _, finalDState_h_eq_compress_buf _, rfl⟩, rfl, rfl, rfl, rfl, rfl, ?_⟩
  simpa [flagWord, BitVec.or_assoc] using hstatus

/-- Settles O29: the accesses by evaluation; INIT, held or performed, leaves DATA alone. -/
theorem dataReadsBackWhatWasWritten : Obligations.DataReadsBackWhatWasWritten := by
  refine ⟨fun _ _ => rfl, fun _ => rfl, fun v s t h => ?_, rfl, fun s t h => ?_⟩
  · cases h
    exact ⟨_, rfl, rfl⟩
  · cases hb : s.busy with
    | true => rw [exec_of_held rfl hb] at h; cases h; rfl
    | false => exact (exec_command_performed rfl hb h).data

/-- Settles O31: the halves make up MLEN, and only a command's rule writes it. -/
theorem lengthReadsReturnMlen : Obligations.LengthReadsReturnMlen := by
  intro s
  refine ⟨fun hb => ⟨exec_of_held rfl hb, exec_of_held rfl hb⟩, fun hb => ?_, fun i t hi h => ?_⟩
  · exact ⟨s.lenLo, s.lenHi, readHeld_of_idle _ hb, readHeld_of_idle _ hb, lenHi_append_lenLo s, lenHi_toNat_le⟩
  · exact (exec_access_cases (command_eq_none hi) h).sameEngine.mlen

/-- Settles O32: a held read waits while BUSY and returns its value otherwise. -/
theorem hashWordReadReturnsTheWord : Obligations.HashWordReadReturnsTheWord :=
  fun _ _ => ⟨exec_of_held rfl, readHeld_of_idle _⟩

/-- Settles O33: row by row, a free read of 0. -/
theorem cmdAndReservedOffsetsReadZero : Obligations.CmdAndReservedOffsetsReadZero := by
  intro i s hi
  fin_cases hi <;> rfl

/-- Settles O34: row by row, a write that is ignored. -/
theorem ignoredWritesChangeNothing : Obligations.IgnoredWritesChangeNothing := by
  intro v k i s hi
  fin_cases hi <;> rfl

/-- Settles O30: each field by the bits of the packed word. -/
theorem statusReadReturnsTheFields : Obligations.StatusReadReturnsTheFields := by
  intro s
  have bit := fun {i : Nat} (hb : s.busy = false) (hi : i < 32) => statusWord_getElem_of_idle hb hi
  refine ⟨s.statusWord, rfl, statusWord_of_busy, fun hb => ⟨?_, ?_, ?_, ?_, ?_, ?_, ?_, ?_, ?_⟩, ?_⟩
  · simp [bit hb]
  · simp [bit hb, State.doneFlag]
  · simp [bit hb, State.errFlag]
  · simp [bit hb]
  case refine_10 =>
    cases hb : s.busy with
    | true => rw [statusWord_of_busy hb]; decide
    | false => simpa [bit hb] using doneFlag_and_errFlag s
  all_goals
    ext i hi
    interval_cases i <;> simp [bit hb]

end Sys2Proof
end

section
/-! PROOFS. The exceptions family (spec/60_exceptions.md): how commands enter, report, ignore and leave ERROR, which
commands fault, and the engines of a platform. -/

namespace Sys2Proof

open Machine

/-! ## The instructions of a legal word -/

/-- A legal command is performed by its own row and by the write of its word to CMD. -/
theorem command_eq_some_iff {d : Command} {w : Word} (hw : d.word = some w) (i : Instr) :
    i.command = some d ↔ i = decodeCmdInstr w ∨ i = .wrCmd w := by
  constructor
  · intro h
    cases i
    case wrCmd c => exact .inr (congrArg Instr.wrCmd ((decodeCmd_eq_iff hw c).mp (Option.some.inj h)))
    all_goals cases h
    case illegal.refl => cases hw
    all_goals
      cases hw
      exact .inl rfl
  · have hd : decodeCmd w = d := (decodeCmd_eq_iff hw w).mpr rfl
    rintro (rfl | rfl)
    · rw [decodeCmdInstr_command, hd]
    · exact congrArg some hd

/-- The word of an ABSORB carries its byte count (R77). -/
theorem count_absorbWord {n : Nat} (h1 : 1 ≤ n) (h4 : n ≤ 4) :
    (decodeCmd ((BitVec.ofNat 32 n <<< 4) ||| 0x2)).count = some n := by
  interval_cases n <;> rfl

namespace Machine

variable {s t : State} {i : Instr} {d : Command}

/-! ## The rule of a command -/

theorem rule_of_count {n : Nat} (h : d.count = some n) : d.rule = absorb n := by
  cases d <;> cases h <;> rfl

/-- Outside ABSORBING a legal command that is not INIT reports BAD_STATE, and looks no further (R205, R210). -/
theorem rule_of_not_absorbing (hi : d ≠ .init) (hl : d ≠ .illegal) (hf : s.fsm ≠ .absorbing) :
    d.rule s = .next (s.raiseError .badState) := by
  cases d
  case init => exact absurd rfl hi
  case illegal => exact absurd rfl hl
  case final => exact if_pos hf
  case finalD => exact if_pos hf
  all_goals exact absorb_of_badState hf

/-- On an open message FINAL and FINAL_D report no error. -/
theorem eq_effect_of_finalizeWith {effect : State → State} (hf : s.fsm = .absorbing)
    (h : finalizeWith effect s = .next t) : t = effect s := by
  rcases finalizeWith_cases effect s with ⟨hne, _⟩ | ⟨_, _, e⟩ | ⟨_, _, e⟩
  · exact absurd hf hne
  · exact Host.Outcome.next.inj (h.symm.trans e)
  · cases h.symm.trans e

/-- An idle engine outside ERROR performs the rule of every command, and INIT's in ERROR too (R150, R208). -/
theorem exec_of_legal (hi : i.command = some d) (hb : s.busy = false) (hl : s.fsm ≠ .error ∨ d = .init) :
    exec i s = d.rule s.complete.setBusy := by
  rw [exec_of_command hi]
  exact performCommand_of_legal hb (hl.imp_right (congrArg Command.isInit))

/-! ## Entering ERROR -/

/-- R204: an illegal command on an idle engine outside ERROR. -/
theorem exists_failed_illegalCmd (hi : i.command = some .illegal) (hb : s.busy = false) (he : s.fsm ≠ .error) :
    ∃ t, exec i s = .next t ∧ Failed .illegalCmd s t :=
  ⟨_, exec_of_legal hi hb (.inl he), failed_raiseError s _⟩

/-- A rule that enters ERROR does so by error entry alone, with one of three codes (R202, R203). -/
theorem RuleEnds.eq_raiseError (h : RuleEnds d s t) (hs : s.fsm ≠ .error) (ht : t.fsm = .error) :
    ∃ code ∈ [ErrCode.illegalCmd, .badState, .lengthOverflow], t = s.raiseError code := by
  cases h with
  | illegal _ e => exact ⟨_, by simp, e⟩
  | badState _ _ _ e => exact ⟨_, by simp, e⟩
  | overflow _ _ _ _ e => exact ⟨_, by simp, e⟩
  | init _ e => subst e; cases ht
  | absorbed _ _ _ _ e => subst e; exact absurd (by simpa using ht) hs
  | final _ _ _ e => subst e; cases ht
  | finalD _ _ _ e => subst e; cases ht

/-- Only a command that is performed enters ERROR. -/
theorem exec_enters_error (h : exec i s = .next t) (hs : s.fsm ≠ .error) (ht : t.fsm = .error) :
    ∃ d, i.command = some d ∧ s.busy = false ∧ RuleEnds d s.complete.setBusy t := by
  cases hi : i.command with
  | none => exact absurd ((exec_access_cases hi h).sameEngine.fsm.symm.trans ht) hs
  | some d =>
    rcases exec_command_cases hi h with ⟨_, rfl⟩ | ⟨_, he, _⟩ | ⟨hb, _, hr⟩
    · exact absurd ht hs
    · exact absurd he hs
    · exact ⟨d, rfl, hb, hr⟩

/-! ## In ERROR, and out of it -/

/-- R208: on an idle engine in ERROR a command that is not INIT completes and changes no item but BUSY. -/
theorem exists_ignored_of_error (hi : i.command = some d) (hd : d ≠ .init) (hb : s.busy = false)
    (he : s.fsm = .error) : ∃ t, exec i s = .next t ∧ Performed s t ∧ SameButBusy s t :=
  ⟨_, exec_command_of_error hi hb he hd, ⟨rfl, rfl, rfl, rfl⟩, .of_eq_amid rfl⟩

theorem RuleEnds.eq_initialise (h : RuleEnds .init s t) : t = s.initialise := by
  cases h with
  | init _ e => exact e
  | badState hi => exact absurd rfl hi
  | illegal hd => cases hd
  | overflow _ hd => cases hd
  | absorbed _ hd => cases hd
  | final hd => cases hd
  | finalD hd => cases hd

/-- The code of the first error is kept in ERROR (R203). -/
theorem exec_errcode_of_error (h : exec i s = .next t) (hs : s.fsm = .error) (ht : t.fsm = .error) :
    t.errcode = s.errcode := by
  cases hi : i.command with
  | none => exact (exec_access_cases hi h).sameEngine.errcode
  | some d =>
    rcases exec_command_cases hi h with ⟨_, rfl⟩ | ⟨_, _, _, rfl⟩ | ⟨_, hl, hr⟩
    · rfl
    · rfl
    · obtain rfl := hl.resolve_left (not_not.mpr hs)
      cases hr.eq_initialise
      cases ht

/-- R26: the fields of STATUS on an idle engine, as RD STATUS returns them. -/
theorem statusWord_fields_of_idle (hb : s.busy = false) :
    (s.statusWord.getLsbD 1 = true ↔ s.fsm = .done) ∧ (s.statusWord.getLsbD 2 = true ↔ s.fsm = .error)
      ∧ s.statusWord.getLsbD 3 = s.double ∧ s.statusWord.extractLsb' 8 4 = s.errcode.code
      ∧ s.statusWord.extractLsb' 16 6 = s.bufcnt := by
  obtain ⟨w, hread, _, hidle, _⟩ := statusReadReturnsTheFields s
  have hreturned := congrArg State.returned (Host.Outcome.next.inj hread)
  obtain rfl : s.statusWord = w := (List.cons.inj hreturned).1
  obtain ⟨-, hdone, herr, hdouble, -, hcode, -, hcnt, -⟩ := hidle hb
  exact ⟨hdone, herr, hdouble, hcode, hcnt⟩

/-! ## Faults -/

theorem finalizeWith_eq_fault_iff (effect : State → State) (s : State) (r : Fault) :
    finalizeWith effect s = .fault r ↔ s.fsm = .absorbing ∧ s.bufcnt.toNat ≠ s.mlen.toNat % 64 := by
  have hready : s.paddingReady = false ↔ s.bufcnt.toNat ≠ s.mlen.toNat % 64 := by simp [State.paddingReady]
  rcases finalizeWith_cases effect s with ⟨hf, e⟩ | ⟨hf, hp, e⟩ | ⟨hf, hp, e⟩ <;> rw [e, ← hready]
  · exact iff_of_false nofun fun h => hf h.1
  · exact iff_of_false nofun fun h => by rw [hp] at h; cases h.2
  · exact iff_of_true rfl ⟨hf, hp⟩

/-- FINAL and FINAL_D fault exactly where they are performed on an inconsistent open message (R207, log 8). -/
theorem finalizing_eq_fault_iff (effect : State → State) (s : State) (r : Fault) :
    performCommand false (finalizeWith effect) s = .fault r ↔
      s.busy = false ∧ s.fsm = .absorbing ∧ s.bufcnt.toNat ≠ s.mlen.toNat % 64 := by
  constructor
  · intro h
    rcases performCommand_cases h with ⟨_, e⟩ | ⟨_, _, _, e⟩ | ⟨hb, _, e⟩
    · cases e
    · cases e
    · exact ⟨hb, (finalizeWith_eq_fault_iff effect s.complete.setBusy r).mp e.symm⟩
  · rintro ⟨hb, hopen⟩
    rw [performCommand_of_legal hb (.inl (by simp [hopen.1]))]
    exact (finalizeWith_eq_fault_iff effect s.complete.setBusy r).mpr hopen

/-- The rules of no commands but FINAL and FINAL_D fault. -/
theorem rule_eq_fault {r : Fault} (h : d.rule s = .fault r) : d = .final ∨ d = .finalD := by
  have absorbs : ∀ n, absorb n s ≠ .fault r := by
    intro n hn
    obtain ⟨t, e⟩ := absorb_next n s
    cases e.symm.trans hn
  cases d
  case init => cases h
  case illegal => cases h
  case final => exact .inl rfl
  case finalD => exact .inr rfl
  all_goals exact absurd h (absorbs _)

/-- Only FINAL and FINAL_D fault. -/
theorem exec_eq_fault {r : Fault} (h : exec i s = .fault r) : i.command = some .final ∨ i.command = some .finalD := by
  cases hi : i.command with
  | none =>
    have hr : ∀ w o, i ≠ .refused w o := by
      rintro w o rfl
      cases h
    obtain ⟨t, e⟩ := exec_access_next hi hr s
    cases e.symm.trans h
  | some d =>
    rw [exec_of_command hi] at h
    rcases performCommand_cases h with ⟨_, e⟩ | ⟨_, _, _, e⟩ | ⟨_, _, e⟩
    · cases e
    · cases e
    · exact (rule_eq_fault e.symm).imp (congrArg some) (congrArg some)

/-! ## Platforms -/

/-- A step of a platform is a step of one of its engines, put back in its place (R215). -/
theorem Platform.stepAt_eq_next {p q : Platform} {k : Nat} (h : p.stepAt k = some (.next q)) :
    ∃ s t, p[k]? = some s ∧ step s = .next t ∧ q = p.set k t := by
  unfold Platform.stepAt at h
  split at h
  next => cases h
  next s hs =>
    split at h
    next t ht =>
      cases h
      exact ⟨s, t, hs, ht, rfl⟩
    next => cases h
    next => cases h

/-- No step of a platform changes which sequences its engines draw from (log 22). -/
theorem Platform.delaySources_of_stepAt {p q : Platform} {k : Nat} (h : p.stepAt k = some (.next q)) :
    q.map State.delaySource = p.map State.delaySource := by
  obtain ⟨s, t, hs, ht, rfl⟩ := Platform.stepAt_eq_next h
  obtain ⟨hk, rfl⟩ := List.getElem?_eq_some_iff.mp hs
  rw [List.map_set, step_delaySource ht]
  exact (List.map_set ..).symm.trans (congrArg _ (List.set_getElem_self hk))

theorem Platform.delaySources_reset (n : Nat) : (Platform.reset n).map State.delaySource = List.range n := by
  simp [Platform.reset, Function.comp_def]

theorem AccessEnds.busy (h : AccessEnds s t) : t.busy = s.busy := by
  rcases h with ⟨_, rfl⟩ | rfl | ⟨_, rfl⟩ | ⟨_, rfl⟩ <;> rfl

/-- An instruction that sets BUSY takes the next draw of its engine's sequence (R237, log 1, log 22). -/
theorem exec_takes_draw (h : exec i s = .next t) (hb : s.busy = false) (ht : t.busy = true) :
    t.busyLeft = Config.tBusy s.delaySource s.draw ∧ t.draw = s.draw + 1 ∧ t.delaySource = s.delaySource := by
  cases hi : i.command with
  | none =>
    rw [(exec_access_cases hi h).busy, hb] at ht
    cases ht
  | some d =>
    rcases exec_command_cases_of_idle hi hb h with ⟨_, _, rfl⟩ | ⟨_, hr⟩
    · exact ⟨rfl, rfl, rfl⟩
    · exact hr.draws.2

end Machine

/-! ## The statements -/

/-- Settles O20: the rule of the decoded command, which looks at the causes in R210's order. -/
theorem commandErrorsByPriority : Obligations.CommandErrorsByPriority := by
  refine ⟨fun s rest hs => ⟨by simp [step, hs], rfl, rfl⟩, fun c s t hb he h => ?_⟩
  have hrule : (decodeCmd c).rule s.complete.setBusy = .next t := (exec_of_legal rfl hb (.inl he)).symm.trans h
  refine ⟨fun hd => ?illegal, fun hl hne hf => ?badState, fun n h1 h4 hc hf => ?absorb, fun hc hf => ?final,
    fun hc => ?init⟩
  case illegal =>
    rw [hd] at hrule
    cases hrule
    exact ⟨rfl, rfl⟩
  case badState =>
    rw [rule_of_not_absorbing (mt (decodeCmd_eq_iff rfl c).mp hne) hl (by simp [hf])] at hrule
    cases hrule
    exact ⟨rfl, rfl⟩
  case absorb =>
    subst hc
    rw [rule_of_count (count_absorbWord h1 h4)] at hrule
    rcases absorb_cases n s.complete.setBusy with ⟨hn, _⟩ | ⟨_, hl, e⟩ | ⟨_, hl, e⟩
    · exact absurd hf hn
    · cases hrule.symm.trans e
      exact .inl ⟨rfl, rfl, hl⟩
    · cases hrule.symm.trans e
      exact .inr ⟨by simp, by simp [hf], hl⟩
  case final =>
    rcases hc with rfl | rfl
    · obtain rfl := eq_effect_of_finalizeWith (s := s.complete.setBusy) (effect := State.finalState) hf hrule
      exact ⟨rfl, rfl⟩
    · obtain rfl := eq_effect_of_finalizeWith (s := s.complete.setBusy) (effect := State.finalDState) hf hrule
      exact ⟨rfl, rfl⟩
  case init =>
    subst hc
    cases hrule
    exact ⟨rfl, rfl⟩

/-- Settles O21: only a rule enters ERROR, and by error entry alone. -/
theorem errorsArePrecise : Obligations.ErrorsArePrecise := by
  intro i s t h hs ht
  obtain ⟨d, hi, hb, hr⟩ := exec_enters_error h hs ht
  have hcommand : i.isCommand = true := by
    by_contra hn
    rw [command_eq_none (by simpa using hn)] at hi
    cases hi
  obtain ⟨code, hcode, rfl⟩ := hr.eq_raiseError hs ht
  refine ⟨hcommand, hb, ?_, ?_, failed_raiseError s code⟩
  · rintro rfl
    simp at hcode
  · rintro rfl
    simp at hcode

/-- Settles O23: FSM moves by a reset or by a rule, and in ERROR the rule is INIT's. -/
theorem onlyInitOrResetLeavesError : Obligations.OnlyInitOrResetLeavesError := by
  intro s t h hs ht
  rcases step_engine_cases h with ⟨rest, hsteps, rfl⟩ | hsame | ⟨a, c, rest, hsteps, hc, hb, hl, hr⟩
  · exact ⟨.inl ⟨rest, hsteps⟩, rfl, rfl, rfl, rfl, rfl, rfl⟩
  · exact absurd (hsame.fsm.trans hs) ht
  · have hd : decodeCmd c = .init := hl.resolve_left (not_not.mpr hs)
    obtain rfl : c = 0x1 := (decodeCmd_eq_iff rfl c).mp hd
    obtain rfl := (hd ▸ hr).eq_initialise
    exact ⟨.inr ⟨a, rest, hsteps, hb, hc⟩, rfl, rfl, rfl, rfl, rfl, rfl⟩

/-- Settles O28: the check of FINAL and FINAL_D is the only place that faults. -/
theorem onlyInconsistentFinalizingFaults : Obligations.OnlyInconsistentFinalizingFaults := by
  refine ⟨fun i s hi => ?_, fun i s r h => ?_⟩
  · rcases hi with rfl | rfl
    · exact finalizing_eq_fault_iff State.finalState s _
    · exact finalizing_eq_fault_iff State.finalDState s _
  · rcases exec_eq_fault h with hi | hi
    · rcases (command_eq_some_iff rfl i).mp hi with e | e
      · exact .inl e
      · exact .inr (.inr (.inl e))
    · rcases (command_eq_some_iff rfl i).mp hi with e | e
      · exact .inr (.inl e)
      · exact .inr (.inr (.inr e))

/-- Settles O55: the stepped engine alone is put back. -/
theorem instancesAreIndependent : Obligations.InstancesAreIndependent := by
  intro p q k h
  obtain ⟨s, t, hs, ht, rfl⟩ := Platform.stepAt_eq_next h
  obtain ⟨hk, _⟩ := List.getElem?_eq_some_iff.mp hs
  exact ⟨List.length_set, fun j hj => List.getElem?_set_ne hj.symm, s, t, hs, List.getElem?_set_self hk, ht⟩

/-- Settles O56: reset numbers the sequences, no step renumbers them, and setting BUSY draws from the engine's own. -/
theorem instancesDrawTheirOwnDelays : Obligations.InstancesDrawTheirOwnDelays := by
  refine ⟨fun n => ⟨by simp [Platform.reset], ?_, fun k hk => by simp [Platform.reset, hk]⟩, fun p q k hp h => ?_,
    fun i s t => exec_takes_draw⟩
  · rw [Platform.Apart, Platform.delaySources_reset]
    exact List.nodup_range
  · rw [Platform.Apart, Platform.delaySources_of_stepAt h]
    exact hp

/-- Settles O18: an illegal command by its rule, and R75's words decode to it. -/
theorem illegalWordEntersError : Obligations.IllegalWordEntersError :=
  fun c _ hb he => ⟨exists_failed_illegalCmd rfl hb he,
    fun hc => exists_failed_illegalCmd (congrArg some ((decodeCmd_eq_illegal_iff c).mpr hc)) hb he⟩

/-- Settles O19: the fields of STATUS on the state that error entry leaves, and the first code is kept. -/
theorem errorEntryWritesCodeAndState : Obligations.ErrorEntryWritesCodeAndState := by
  refine ⟨fun s code => ⟨rfl, fun hb => ?_⟩, fun i s t => exec_errcode_of_error⟩
  obtain ⟨hdone, herr, hdouble, hcode, hcnt⟩ := statusWord_fields_of_idle (s := s.raiseError code) hb
  exact ⟨Bool.eq_false_iff.mpr (mt hdone.mp nofun), herr.mpr rfl, hcode, hdouble, hcnt⟩

/-- Settles O22: a command that is not INIT, by its row or by its word, is ignored in ERROR. -/
theorem errorIgnoresEveryCommandButInit : Obligations.ErrorIgnoresEveryCommandButInit := by
  refine ⟨fun i s hi hb he => ?_, fun c s hb he => ⟨exists_ignored_of_error rfl nofun hb he, fun hc => ?_⟩⟩
  · fin_cases hi
    all_goals exact exists_ignored_of_error rfl nofun hb he
  · exact exists_ignored_of_error rfl (mt (decodeCmd_eq_iff rfl c).mp hc) hb he

end Sys2Proof
end

section
/-! PROOFS. The reset and hazards family (spec/70_reset_and_hazards.md): what a reset leaves (R230, R231), which accesses
are held while BUSY, and how long a held access waits (R234). -/

namespace Sys2Proof

open Machine

namespace Machine

variable {s : State} {a : Access} {rest : List HostStep}

/-- R230: a reset that is next is the step, in every state. -/
theorem step_of_reset (hs : s.hostSteps = .reset :: rest) : step s = .next s.resetEngine := by
  simp [step, hs]

/-! ## Which accesses are held -/

/-- R234: an access that is not held is performed at once, BUSY or not, and the host goes on. -/
theorem exec_of_not_held {i : Instr} (hi : i.isHeld = false) (hr : ∀ width op7, i ≠ .refused width op7) (s : State) :
    ∃ t, exec i s = .next t ∧ t.hostSteps = s.hostSteps.tail ∧ t.busy = s.busy := by
  cases hc : i.command with
  | none =>
    obtain ⟨t, ht⟩ := exec_access_next hc hr s
    have hidle : i.isHeld = true → s.busy = false := fun hheld => by rw [hi] at hheld; cases hheld
    obtain ⟨htail, -⟩ := exec_access_amid hc hidle hidle ht
    exact ⟨t, ht, htail, (exec_access_cases hc ht).busy⟩
  | some d => rw [isHeld_of_command hc] at hi; cases hi

/-- A step before a held access while BUSY is FINISH, when it is due, or time passing. -/
theorem step_of_held (hs : s.hostSteps = .access a :: rest) (ha : (decodeBus a).isHeld = true) (hb : s.busy = true) :
    step s = .next (if s.finishDue then s.finish else s.tick) := by
  split
  next hd => exact step_of_due (by simp [hs]) hd
  next hd =>
    rw [step_access hs (by simpa using hd)]
    exact exec_of_held ha (by simpa using hb)

/-! ## How long a held access waits -/

/-- One step of the machine is the run of length one, whatever it answers. -/
theorem run_one_eq_step (s : State) : Sys2Proof.core.run 1 s = step s := by
  cases h : step s with
  | next t => exact run_one h
  | fault r => exact run_succ_of_fault h
  | refused r => exact run_succ_of_refused h

/-- Until the delay has passed a host that waits sees only the delay count down (log 1). -/
theorem run_countdown (hw : HostWaits s.hostSteps) (hb : s.busy = true) {k : Nat} (hk : k ≤ s.busyLeft) :
    Sys2Proof.core.run k s = .next { s with busyLeft := s.busyLeft - k } := by
  obtain ⟨-, htick⟩ := hw
  induction k with
  | zero => rfl
  | succ k ih =>
    have hleft : s.busyLeft - k ≠ 0 := by omega
    exact run_trans (ih (by omega)) (run_one (htick { s with busyLeft := s.busyLeft - k } rfl hb hleft))

/-- When the delay has passed a host that waits sees FINISH, at exactly the next step (R167, R237). -/
theorem run_finish (hw : HostWaits s.hostSteps) (hb : s.busy = true) :
    Sys2Proof.core.run (s.busyLeft + 1) s = .next { s with busy := false, busyLeft := 0 } := by
  have hdown := run_countdown hw hb le_rfl
  rw [Nat.sub_self] at hdown
  obtain ⟨hreset, -⟩ := hw
  have hdue : ({ s with busyLeft := 0 } : State).finishDue = true := by simp [State.finishDue, hb]
  exact run_trans hdown (run_one (step_of_due hreset hdue))

end Machine

/-! ## The statements -/

/-- Settles O35: `exec` by whether the instruction is held, and the step before a held access by whether FINISH is
due. -/
theorem onlyTheListedAccessesAreHeld : Obligations.OnlyTheListedAccessesAreHeld := by
  refine ⟨fun i s hb hi => exec_of_held hi hb, fun i s hb hi hr => ?_, fun s t a rest hs ha hb h => ?_⟩
  · obtain ⟨t, ht, htail, hbusy⟩ := exec_of_not_held hi hr s
    exact ⟨t, ht, htail, hbusy.trans hb⟩
  · rw [step_of_held hs ha hb] at h
    cases h
    split
    · exact ⟨rfl, .of_eq_amid rfl, rfl⟩
    · exact ⟨s.tick_hostSteps, sameButBusy_tick s, s.tick_returned⟩

/-- Settles O36: the delay counts down, FINISH comes, and with the engine idle the access is performed. -/
theorem heldAccessIsPerformedAfterFinish : Obligations.HeldAccessIsPerformedAfterFinish := by
  intro s a rest hs ha hb
  have hw : HostWaits s.hostSteps := hs ▸ hostWaits_held ha rest
  have hfinish := run_finish hw hb
  refine ⟨fun k hk => run_countdown hw hb hk, hfinish, ?_⟩
  have hrun := (run_add (k := 1) hfinish).trans (run_one_eq_step _)
  exact hrun.trans (step_access hs rfl)

/-- Settles O10: a reset that is next goes before everything else, and the buffer it leaves holds zeros. -/
theorem resetStepIsAlwaysEnabled : Obligations.ResetStepIsAlwaysEnabled := by
  intro s rest hs
  exact ⟨_, step_of_reset hs, rfl, rfl, rfl, rfl, rfl, rfl, fun j _ => blockByte_zeros j, rfl, rfl, by simp [hs], rfl⟩

/-- Settles O12: what INIT writes is what reset writes, and FINISH clears the BUSY that INIT set. -/
theorem resetEqualsInitThenFinishButData : Obligations.ResetEqualsInitThenFinishButData :=
  fun _ hb => ⟨_, exec_init_of_idle hb, .of_eq_amid rfl, rfl⟩

end Sys2Proof
end

section
/-! PROOFS. The known answers (spec/95_test_vectors.md): a message shorter than a block is hashed by one or two
compressions, and the vectors V-S1, V-S2, V-S3, V-S5 and V-C2 are those compressions evaluated. -/

namespace Sys2Proof

open Machine

namespace Machine

variable {m : Message}

/-! ## Messages shorter than a block -/

/-- R104, R105: tail, terminator and length share the one block. -/
theorem hashBlocks_of_le_55 (h : m.length ≤ 55) :
    hashBlocks m = compress h0init (tabulate (withLength m.length (tailByte m))) := by
  have hone : m.length % 64 ≤ 55 := (Nat.mod_le _ _).trans h
  rw [hashBlocks, blocks_of_short (by omega), synthesizedBlocks, if_pos hone, compressAll_cons, compressAll_nil]

/-- R104, R106: the length goes into a second block. -/
theorem hashBlocks_of_gt_55 (h : 55 < m.length) (h' : m.length < 64) : hashBlocks m =
    compress (compress h0init (tabulate (tailByte m))) (tabulate (withLength m.length fun _ => 0)) := by
  have htwo : ¬ m.length % 64 ≤ 55 := by omega
  rw [hashBlocks, blocks_of_short h', synthesizedBlocks, if_neg htwo, compressAll_cons, compressAll_cons,
    compressAll_nil]

/-! ## The vectors -/

/-- V-S1. -/
theorem hashBlocks_abc : hashBlocks [0x61, 0x62, 0x63] =
    #v[0xba7816bf, 0x8f01cfea, 0x414140de, 0x5dae2223, 0xb00361a3, 0x96177a9c, 0xb410ff61, 0xf20015ad] := by
  rw [hashBlocks_of_le_55 (by decide)]
  decide +kernel

/-- V-S5, pass two: the digest of V-S1 is hashed in one block. -/
theorem hashBlocks_digest_abc : hashBlocks (digest
      #v[0xba7816bf, 0x8f01cfea, 0x414140de, 0x5dae2223, 0xb00361a3, 0x96177a9c, 0xb410ff61, 0xf20015ad]) =
    #v[0x4f8b42c2, 0x2dd3729b, 0x519ba6f6, 0x8d2da7cc, 0x5b2d606d, 0x05daed5a, 0xd5128cc0, 0x3e6c6358] := by
  rw [hashBlocks_of_le_55 (by rw [digest_length]; decide)]
  decide +kernel

/-- V-S5: both passes. -/
theorem sha256d_abc : sha256d [0x61, 0x62, 0x63] = [0x4f8b42c2#32, 0x2dd3729b#32, 0x519ba6f6#32, 0x8d2da7cc#32,
    0x5b2d606d#32, 0x05daed5a#32, 0xd5128cc0#32, 0x3e6c6358#32].flatMap be32 := by
  rw [sha256d, sha256, sha256, hashBlocks_abc, hashBlocks_digest_abc]
  rfl

/-- V-S2: the block of the empty message holds only the terminator. -/
theorem hashBlocks_nil : hashBlocks [] =
    #v[0xe3b0c442, 0x98fc1c14, 0x9afbf4c8, 0x996fb924, 0x27ae41e4, 0x649b934c, 0xa495991b, 0x7852b855] := by
  rw [hashBlocks_of_le_55 (by decide)]
  decide +kernel

/-- The message of V-S3: "abcdbcdecdef...nopq", 14 runs of four letters. -/
def letterRuns : Message := (List.range 14).flatMap fun i => (List.range 4).map fun j => BitVec.ofNat 8 (0x61 + i + j)

theorem letterRuns_length : letterRuns.length = 56 := by decide

/-- V-S3, `H` after block 0. -/
theorem compress_letterRuns_tail : compress h0init (tabulate (tailByte letterRuns)) =
    #v[0x85e655d6, 0x417a1795, 0x3363376a, 0x624cde5c, 0x76e09589, 0xcac5f811, 0xcc4b32c1, 0xf20e533a] := by
  decide +kernel

/-- V-S3: the second block holds only the length. -/
theorem hashBlocks_letterRuns : hashBlocks letterRuns =
    #v[0x248d6a61, 0xd20638b8, 0xe5c02693, 0x0c3e6039, 0xa33ce459, 0x64ff2167, 0xf6ecedd4, 0x19db06c1] := by
  rw [hashBlocks_of_gt_55 (by rw [letterRuns_length]; decide) (by rw [letterRuns_length]; decide),
    compress_letterRuns_tail, letterRuns_length]
  decide +kernel

/-- V-C2, last row: everything all ones. -/
theorem compress_ones : compress (Vector.replicate 8 0xffffffff) (Vector.replicate 64 0xff) =
    #v[0x0598127a, 0xaf11706e, 0x77401fff, 0xd730c549, 0x0b84c867, 0xa98c6ca3, 0xd7f3c0f9, 0x06a78b79] := by
  decide +kernel

end Machine

/-! ## The statement -/

/-- Settles O45: each vector by the compressions of its blocks, V-S5 by its two passes. -/
theorem knownAnswersAreReproduced : Obligations.KnownAnswersAreReproduced :=
  ⟨hashBlocks_abc, sha256d_abc, hashBlocks_nil, hashBlocks_letterRuns, compress_ones⟩

end Sys2Proof
end
